-- ==== Sys2Proof/Word.lean ====
section
/-! DEFINITION. The bit-vector types of the engine (spec/00_scope.md R7, R10). Nothing in the engine is signed. -/

namespace Sys2Proof

/-- `u8` of R10: one byte of a byte string. -/
abbrev Byte := BitVec 8

/-- `u32` of R10: a word, an unsigned value in `[0, 2^32)` (WORD of R7). -/
abbrev Word := BitVec 32

/-- `u64` of R10: a 64-bit value, the width of the block counter (CTRWIDTH of R7). -/
abbrev DWord := BitVec 64

/-- The sixteen words of a context slot or of the working buffer (NWORDS of R7; R22, R25). -/
abbrev Block := Vector Word 16

end Sys2Proof
end

