-- ==== Sys2Proof/Machine/Codec.lean ====
section
/-! DEFINITION. The little-endian byte codec (spec/44_codec.md) and the byte-string accesses MemRead and MemWrite
(spec/20_memory.md R51). A byte string is a list of bytes, indexed from 0 (R10). -/

namespace Sys2Proof.Machine

/-- UNPACK (R181): the word whose bytes, least significant first, stand at `off`. -/
def unpack (b : List Byte) (off : Nat) (h : off + 3 < b.length) : Word :=
  b[off].setWidth 32 ||| b[off + 1].setWidth 32 <<< 8 ||| b[off + 2].setWidth 32 <<< 16 ||| b[off + 3].setWidth 32 <<< 24

/-- PACK (R182): writes the four bytes of `v` at `off`, least significant first. Outside the string nothing is written;
no offset the engine passes is outside (R180; notes/assumptions/13.md). -/
def pack (v : Word) (b : List Byte) (off : Nat) : List Byte :=
  (((b.set off (v.extractLsb' 0 8)).set (off + 1) (v.extractLsb' 8 8)).set (off + 2) (v.extractLsb' 16 8)).set
    (off + 3) (v.extractLsb' 24 8)

/-- The unsigned value of a byte string, least-significant byte first (R52). -/
def leNat : List Byte → Nat
  | [] => 0
  | b :: bs => b.toNat + 256 * leNat bs

/-- The `n` low bytes of `v`, least-significant byte first (R52). -/
def leBytes : Nat → Nat → List Byte
  | 0, _ => []
  | n + 1, v => BitVec.ofNat 8 v :: leBytes n (v / 256)

/-- `MemRead(off, n)` over the operand string `b` (R51). -/
def memRead (b : List Byte) (off n : Nat) : Nat := leNat ((b.drop off).take n)

/-- `MemWrite(off, n, v)` into the response byte payload `b` (R51): byte `off + k` becomes `v[8k+7 : 8k]`. -/
def memWrite (b : List Byte) (off : Nat) : Nat → Nat → List Byte
  | 0, _ => b
  | n + 1, v => (memWrite b off n v).set (off + n) (BitVec.ofNat 8 (v >>> (8 * n)))

end Sys2Proof.Machine
end

