-- ==== Sys2Proof/Syntax.lean ====
section
/-! DEFINITION. The commands as syntax: one constructor for each row of spec/opcode_table.json, and what the decoder hands over
before legality is judged (spec/30_encoding.md R70 to R78). -/

namespace Sys2Proof

/-- One command of the opcode map (R76). A command whose must-be-zero fields are not zero matches no row of the table
(90_conflicts.md C4), so it is no `Instr`: the decoder names it illegal (`Illegal`). -/
inductive Instr where
  /-- CREATE (OP 0x01, format FC, R101): the key and nonce strings carry their own lengths KLEN and NLEN (R73). -/
  | create (slot : BitVec 8) (key nonce : List Byte)
  /-- NEXTB (OP 0x02, format F0, R191). -/
  | nextb (slot : BitVec 8)
  /-- NEXTW (OP 0x03, format F0, R192). -/
  | nextw (slot : BitVec 8)
  /-- SEEK (OP 0x04, format FS, R193): `c` is the new 64-bit counter value (R75). -/
  | seek (slot : BitVec 8) (c : DWord)
  /-- TELL (OP 0x05, format F0, R194). -/
  | tell (slot : BitVec 8)
deriving DecidableEq, Repr

/-- The slot a command names, its SLOT field (R71). -/
def Instr.slot : Instr → BitVec 8
  | .create slot _ _ => slot
  | .nextb slot => slot
  | .nextw slot => slot
  | .seek slot _ => slot
  | .tell slot => slot

/-- `Cmd(OP, SLOT, KLEN, NLEN, operands)` of R77: the raw fields of a complete command, legal or not. -/
structure RawCommand where
  op : Byte
  slot : Byte
  klen : Byte
  nlen : Byte
  operand : List Byte
deriving DecidableEq, Repr

/-- What `decode` answers on the bytes received so far (R77). -/
inductive Decoded where
  /-- The bytes are not yet a whole command. -/
  | needMore
  /-- A whole command and its length in bytes. -/
  | command (c : RawCommand) (len : Nat)
deriving DecidableEq, Repr

/-- Why a whole command matches no row of the opcode table (R78). The third ground of R78, OP 0x04 or 0x05 without
COUNTER_ACCESS, depends on the machine's parameter and is judged when the command executes (R193, R194). -/
inductive Illegal where
  /-- OP is 0x00 or in 0x06..0xFF. -/
  | reservedOpcode (op : Byte)
  /-- OP is in 0x02..0x05 and KLEN or NLEN is not zero. -/
  | nonzeroLengthField (klen nlen : Byte)
deriving DecidableEq, Repr

end Sys2Proof
end

