-- ==== Sys2Proof/WellFormed.lean ====
section
/-! DEFINITION. Which instruction terms can be spelled as a command: KLEN and NLEN are 8-bit fields, so a key or nonce is at
most 255 bytes long (spec/30_encoding.md R71, R73, R78). -/

namespace Sys2Proof

/-- A CREATE is spelled only with a key and a nonce of at most 255 bytes each; every other term can be spelled. -/
def Instr.wellFormed : Instr → Bool
  | .create _ key nonce => decide (key.length ≤ 255) && decide (nonce.length ≤ 255)
  | .nextb _ => true
  | .nextw _ => true
  | .seek _ _ => true
  | .tell _ => true

end Sys2Proof
end

