-- ==== Sys2Proof/Decode.lean ====
section
/-! DEFINITION. Decoding and encoding of commands (spec/30_encoding.md). Decoding is total on any byte string (R77); a whole
command that matches no row of the opcode map is rejected by name (R78). -/

namespace Sys2Proof

open Sys2Proof.Machine

/-- OP, bits [7:0] of the command word (R71). -/
def cwOp (cw : Word) : Byte := cw.extractLsb' 0 8

/-- SLOT, bits [15:8] of the command word (R71). -/
def cwSlot (cw : Word) : Byte := cw.extractLsb' 8 8

/-- KLEN, bits [23:16] of the command word (R71). -/
def cwKlen (cw : Word) : Byte := cw.extractLsb' 16 8

/-- NLEN, bits [31:24] of the command word (R71). -/
def cwNlen (cw : Word) : Byte := cw.extractLsb' 24 8

/-- `len(CW)` (R74): decided by the command word alone, legal or not. -/
def commandLength (cw : Word) : Nat :=
  if cwOp cw = 0x01 then 4 + (cwKlen cw).toNat + (cwNlen cw).toNat
  else if cwOp cw = 0x04 then 12
  else 4

/-- `decode(b)` on the bytes received so far (R77). -/
def decode (b : List Byte) : Decoded :=
  if h : b.length < 4 then .needMore
  else
    let cw := unpack b 0 (by omega)
    let len := commandLength cw
    if b.length < len then .needMore
    else .command
      { op := cwOp cw, slot := cwSlot cw, klen := cwKlen cw, nlen := cwNlen cw, operand := (b.take len).drop 4 } len

/-- The row of the opcode map a whole command belongs to (R76), or the name of what makes it illegal (R78). In format FC the
key is the first KLEN operand bytes and the nonce the NLEN after them (R73); in format FS the operand is the 64-bit counter,
`MemRead(0, 8)` (R75). -/
def classify (c : RawCommand) : Except Illegal Instr :=
  if c.op = 0x01 then
    .ok (.create c.slot (c.operand.take c.klen.toNat) ((c.operand.drop c.klen.toNat).take c.nlen.toNat))
  else if c.op = 0x00 ∨ 0x06 ≤ c.op then .error (.reservedOpcode c.op)
  else if c.klen ≠ 0 ∨ c.nlen ≠ 0 then .error (.nonzeroLengthField c.klen c.nlen)
  else if c.op = 0x02 then .ok (.nextb c.slot)
  else if c.op = 0x03 then .ok (.nextw c.slot)
  else if c.op = 0x04 then .ok (.seek c.slot (BitVec.ofNat 64 (memRead c.operand 0 8)))
  else .ok (.tell c.slot)

/-- The bytes of a command in send order (R81). -/
def encode : Instr → List Byte
  | .create slot key nonce =>
    [0x01, slot, BitVec.ofNat 8 key.length, BitVec.ofNat 8 nonce.length] ++ (key ++ nonce)
  | .nextb slot => [0x02, slot, 0x00, 0x00]
  | .nextw slot => [0x03, slot, 0x00, 0x00]
  | .seek slot c => [0x04, slot, 0x00, 0x00] ++ leBytes 8 c.toNat
  | .tell slot => [0x05, slot, 0x00, 0x00]

/-- The bytes of the one command whose bits, least significant first, are the `nbits` low bits of `w` and above them zeros:
as many bytes as `len(CW)` gives it (R74). -/
def tableBytes (nbits w : Nat) : List Byte :=
  leBytes (commandLength (BitVec.ofNat 32 (w % 2 ^ nbits))) (w % 2 ^ nbits)

/-- The instruction the decoder reads from a table row's word, none where it rejects it. -/
def decodeTableWord (nbits w : Nat) : Option Instr :=
  match decode (tableBytes nbits w) with
  | .needMore => none
  | .command c _ =>
    match classify c with
    | .ok i => some i
    | .error _ => none

end Sys2Proof
end

