-- ==== Sys2Proof/Config.lean ====
section
/-! DEFINITION. The implementation parameters NCTX and COUNTER_ACCESS (spec/00_scope.md R8), and the free values: what the spec
calls a draw (R12), a value under no law. -/

namespace Sys2Proof

/-- The parameters the source leaves open (R8): fixed for the life of the engine (R20). -/
structure Params where
  /-- NCTX, the number of context slots. -/
  nctx : Nat
  /-- COUNTER_ACCESS, whether SEEK and TELL exist. -/
  counterAccess : Bool
deriving DecidableEq, Repr

/-- The range R8 gives the parameters: `1 <= NCTX <= 256`. -/
def Params.valid (p : Params) : Bool := decide (1 ≤ p.nctx) && decide (p.nctx ≤ 256)

/-- The build that `State.reset` stands for. DESIGN CHOICE (notes/assumptions/1.md): the spec leaves both parameters open, and
these are the values its own decoding vectors use (95_test_vectors.md V40). No statement rests on them: every state carries
its own parameters, and `State.resetWith` is the reset state for any of them. Unsafe for a claim about `State.reset` alone. -/
def Config.params : Params := { nctx := 2, counterAccess := true }

/-- `draw u32` (R12, R228): the `n`-th drawn word. It has no body: no proof can see a value. -/
opaque Config.freeWord : Nat → Word

/-- A drawn byte (R228: the 64 payload bytes of a NEXTB that exhausts the counter). It has no body. -/
opaque Config.freeByte : Nat → Byte

end Sys2Proof
end

