-- ==== Sys2Proof/Machine/State.lean ====
section
/-! DEFINITION. The engine's state (spec/10_state.md R20), the ports between it and its hosts (spec/20_memory.md R50, R54), the
reasons a step can stop, and the state after reset (R35). -/

namespace Sys2Proof.Machine

/-- The result codes of R220, by name. Their numbers are in Machine/Flags.lean. -/
inductive ResultCode where
  | ok
  | invalidInputLength
  | illegalCommand
  | slotOutOfRange
  | noState
  | counterExhausted
deriving DecidableEq, Repr

/-- STATUS (R27): the field LAST, bits [7:0], and the sticky bit EXH, bit [8]. Bits [31:9] are hardwired to 0 and have no
storage here; the 32-bit register is `Status.word` (Machine/Flags.lean). -/
structure Status where
  last : BitVec 8
  exh : Bool
deriving DecidableEq, Repr

/-- The payload of a response (R50, R54): none, the byte payload of NEXTB, or the word payload of NEXTW and TELL. -/
inductive Payload where
  | empty
  | bytes (bs : List Byte)
  | words (ws : List Word)
deriving DecidableEq, Repr

/-- One response (R54): the value of STATUS after the command, then the payload; `host` is the host that receives it (R9). -/
structure Response where
  host : Nat
  status : Word
  payload : Payload
deriving DecidableEq, Repr

/-- What a host sees on the engine's three response ports (R54), one item after the other. -/
inductive PortItem where
  /-- The status port: a value of STATUS. -/
  | status (w : Word)
  /-- The byte port. -/
  | byte (b : Byte)
  /-- The word port. -/
  | word (w : Word)
deriving DecidableEq, Repr

/-- What arrives at the engine from outside (R9, R31, R250). The list `State.port` of these is the environment's schedule, any
order of the hosts' bytes and of resets being one such list (R58). -/
inductive PortEvent where
  /-- A host sends one byte to the command port. -/
  | byte (host : Nat) (b : Byte)
  /-- A reset (R250). It comes before the engine executes a command that is complete but not yet executed. -/
  | reset
  /-- Nothing arrives until the engine has executed the complete command it holds, if it holds one. -/
  | idle
deriving DecidableEq, Repr

/-- The reasons a step stops. -/
inductive Fault where
  /-- Raised by the step alone: CMDBUF holds no whole command and nothing is to arrive, so the engine has no step (R31, R257;
  93_implementation_defined.md U15, 'stuck'). Safe: no state follows. -/
  | awaitingBytes
deriving DecidableEq, Repr

/-- The reasons a step is refused. -/
inductive Refusal where
  /-- Raised by `exec` alone, for an instruction without a meaning; no arm raises it now. Safe: no state follows. -/
  | notModelled (mnemonic : String)
deriving DecidableEq, Repr

/-- The engine (R20) with its parameters, its ports and the counter of free values. -/
structure State where
  /-- The context slots 0 to NCTX - 1 (R20): `none` is a slot with `V[s] = 0`, whose words hold no value and must not be given
  one (R23); `some w` is a slot with `V[s] = 1` and words `W[s] = w`. NCTX is the length of the list. -/
  slots : List (Option Block)
  /-- STATUS (R27). -/
  status : Status
  /-- The working buffer `X` (R25). -/
  x : Block
  /-- CMDBUF (R31). -/
  cmdbuf : List Byte
  /-- The parameter COUNTER_ACCESS (R8): no step writes it. -/
  counterAccess : Bool
  /-- What is still to arrive from outside, first first (the model's own field: R9, R58, R250). -/
  port : List PortEvent
  /-- The host whose byte the command port took last (the model's own field: R9). -/
  client : Nat
  /-- Every response sent, oldest first (the model's own field: R54, R58). -/
  out : List Response
  /-- How many free values have been drawn (the model's own field: R12, R228). -/
  draws : Nat
deriving DecidableEq, Repr

/-- The state after reset of an engine with parameters `p` (R35): every valid bit 0, STATUS 0, CMDBUF empty. Slot words hold no
value. `x` is zero, a DESIGN CHOICE (notes/assumptions/3.md), unsafe: R35 gives it no value, and no command reads it. -/
def State.resetWith (p : Params) : State where
  slots := List.replicate p.nctx none
  status := { last := 0, exh := false }
  x := Vector.replicate 16 0
  cmdbuf := []
  counterAccess := p.counterAccess
  port := []
  client := 0
  out := []
  draws := 0

/-- The state after reset (R35) of the build `Config.params` (notes/assumptions/1.md). -/
def State.reset : State := State.resetWith Config.params

end Sys2Proof.Machine
end

