-- ==== Sys2Proof/Machine/Flags.lean ====
section
/-! DEFINITION. STATUS and the result codes (spec/10_state.md R27 to R29, spec/60_exceptions.md R220). The engine has no
condition codes (R29). -/

namespace Sys2Proof.Machine

/-- The code numbers of R220. -/
def ResultCode.code : ResultCode → BitVec 8
  | .ok => 0x00
  | .invalidInputLength => 0x01
  | .illegalCommand => 0x02
  | .slotOutOfRange => 0x03
  | .noState => 0x04
  | .counterExhausted => 0x05

/-- STATUS as the 32-bit register a host reads (R27): LAST in [7:0], EXH in [8], zeros above. -/
def Status.word (st : Status) : Word := st.last.setWidth 32 ||| (if st.exh then 0x100 else 0)

/-- `STATUS.LAST <- code`; EXH stays (R29). -/
def State.setLast (code : ResultCode) (s : State) : State :=
  { s with status := { s.status with last := code.code } }

/-- `STATUS.EXH <- 1` (R228). -/
def State.setExh (s : State) : State :=
  { s with status := { s.status with exh := true } }

end Sys2Proof.Machine
end

