-- ==== Sys2Proof/Machine/Operands.lean ====
section
/-! DEFINITION. How a command reaches its operands: the parameters, the slot its SLOT field names, the block counter of a slot,
and the key and nonce words of a CREATE (spec/10_state.md R22, R23, R26; spec/41_construction.md R102, R103). -/

namespace Sys2Proof.Machine

/-- NCTX (R8, R20): how many slots the engine has. -/
def State.nctx (s : State) : Nat := s.slots.length

/-- The engine's parameters (R8). -/
def State.params (s : State) : Params := { nctx := s.nctx, counterAccess := s.counterAccess }

/-- The valid bit `V[k]` (R23). -/
def State.valid (s : State) (k : Nat) : Bool :=
  match s.slots[k]? with
  | some (some _) => true
  | some none => false
  | none => false

/-- The words `W[slot]` a command may read, or the error that stops it first: SlotOutOfRange (R223), then NoState (R225), in
the order of R231. -/
def State.context (s : State) (slot : BitVec 8) : Except ResultCode Block :=
  match s.slots[slot.toNat]? with
  | none => .error .slotOutOfRange
  | some none => .error .noState
  | some (some w) => .ok w

/-- `W[slot][0..15] <- w` and `V[slot] <- 1`; no other slot changes (R24). -/
def State.setContext (slot : BitVec 8) (w : Block) (s : State) : State :=
  { s with slots := s.slots.set slot.toNat (some w) }

/-- `ctr = {W[13], W[12]}` (R26). -/
def blockCounter (w : Block) : DWord := w[13] ++ w[12]

/-- `W[12] <- c[31:0]`, `W[13] <- c[63:32]` (R193). -/
def setCounter (w : Block) (c : DWord) : Block :=
  (w.set 12 (c.extractLsb' 0 32)).set 13 (c.extractLsb' 32 32)

/-- Word `j` of CREATE's operand string: `MemRead(4*j, 4)` (R101). Words 0 to 7 are the key's (R102), 8 and 9 the nonce's
(R103), when the key is 32 bytes long. -/
def operandWord (operand : List Byte) (j : Nat) : Word := BitVec.ofNat 32 (memRead operand (4 * j) 4)

end Sys2Proof.Machine
end

