-- ==== Sys2Proof/Machine/Ops.lean ====
section
/-! DEFINITION. The operations every command ends in: the response (spec/20_memory.md R54), normal completion, an error
(spec/60_exceptions.md R226), the exhaustion fault (R228); and reset as an event (spec/70_reset_and_hazards.md R250). There is
no trap entry and no return from one (R233, R234): an error or fault saves no state, changes no mode and moves no control. -/

namespace Sys2Proof.Machine

/-- What a command or a step answers. -/
abbrev Result := Host.Outcome State Fault Refusal

/-- Sends the response of a command: STATUS as the command left it, then the payload (R54), to the host that sent it (R9). -/
def State.respond (p : Payload) (s : State) : State :=
  { s with out := s.out ++ [{ host := s.client, status := s.status.word, payload := p }] }

/-- Normal completion: `STATUS.LAST <- 0x00` and the response with its payload (R54, R220). -/
def complete (p : Payload) (s : State) : Result := .next ((s.setLast .ok).respond p)

/-- `raise E()` for an error (R226): `STATUS.LAST <- code`, a response without payload, and nothing else. -/
def raiseError (e : ResultCode) (s : State) : Result := .next ((s.setLast e).respond .empty)

/-- The counter words a fault leaves (R228): both draws, whatever they were. -/
def drawCounter (w : Block) (d : Nat) : Block :=
  (w.set 12 (Config.freeWord d)).set 13 (Config.freeWord (d + 1))

/-- The payload of a NEXTB that exhausts the counter: 64 draw bytes (R228). -/
def drawBytes (d : Nat) : Payload := .bytes ((List.range 64).map fun k => Config.freeByte (d + 2 + k))

/-- The payload of a NEXTW that exhausts the counter: 16 draw words (R228). -/
def drawWords (d : Nat) : Payload := .words ((List.range 16).map fun k => Config.freeWord (d + 2 + k))

/-- The fault CounterExhausted on `slot`, whose words were `w` (R228): LAST 0x05, EXH 1, both counter words and the payload
drawn; every other word, valid bit and slot unchanged. The engine goes on (R229). -/
def raiseCounterExhausted (slot : BitVec 8) (w : Block) (p : Payload) (s : State) : Result :=
  let s := s.setContext slot (drawCounter w s.draws)
  let s := { s with draws := s.draws + 66 }
  .next ((s.setLast .counterExhausted).setExh.respond p)

/-- Reset as an event (R250): the values of R35; the parameters stay (R252), a partial command is discarded and no response is
sent for it. The ports' history and what is still to arrive are outside the engine and stay. -/
def State.resetEvent (s : State) : State :=
  { State.resetWith s.params with port := s.port, client := s.client, out := s.out, draws := s.draws }

/-- Whether an event is a reset. -/
def PortEvent.isReset : PortEvent → Bool
  | .byte _ _ => false
  | .reset => true
  | .idle => false

/-- The command port takes one byte into CMDBUF (R31). -/
def State.acceptByte (host : Nat) (b : Byte) (s : State) : State :=
  { s with cmdbuf := s.cmdbuf ++ [b], client := host }

/-- CMDBUF holding exactly `bytes`, and no reset about to come before they execute. -/
def State.loadCommand (bytes : List Byte) (s : State) : State :=
  { s with cmdbuf := bytes, port := s.port.dropWhile PortEvent.isReset }

/-- The items of a response in the order they are sent (R54): STATUS on the status port, then the payload in offset order on
the byte port or in index order on the word port. -/
def Response.portItems (r : Response) : List PortItem :=
  match r.payload with
  | .empty => [.status r.status]
  | .bytes bs => .status r.status :: bs.map PortItem.byte
  | .words ws => .status r.status :: ws.map PortItem.word

end Sys2Proof.Machine
end

