-- ==== Sys2Proof/Machine/CounterAccess.lean ====
section
/-! DEFINITION. The optional counter access SEEK and TELL (spec/45_output_commands.md R193, R194), present when COUNTER_ACCESS is
true and illegal otherwise. Their must-be-zero check stands in `classify` (Decode.lean). -/

namespace Sys2Proof.Machine

/-- SEEK (R193): sets the block counter; every 64-bit value is accepted. -/
def execSeek (slot : BitVec 8) (c : DWord) (s : State) : Result :=
  if s.counterAccess = false then raiseError .illegalCommand s
  else
    match s.context slot with
    | .error e => raiseError e s
    | .ok w => complete .empty (s.setContext slot (setCounter w c))

/-- TELL (R194): returns the counter words, low first. -/
def execTell (slot : BitVec 8) (s : State) : Result :=
  if s.counterAccess = false then raiseError .illegalCommand s
  else
    match s.context slot with
    | .error e => raiseError e s
    | .ok w => complete (.words [w[12], w[13]]) s

end Sys2Proof.Machine
end

