-- ==== Sys2Proof/Machine/Create.lean ====
section
/-! DEFINITION. CREATE, the construction of a context (spec/41_construction.md). -/

namespace Sys2Proof.Machine

/-- The sixteen words CREATE writes, from its operand string `key ++ nonce` (R101): the constants (R104), eight key words
(R102), the counter at 0 (R105), two nonce words (R103). -/
def createWords (b : List Byte) : Block :=
  #v[0x61707865, 0x3320646e, 0x79622d32, 0x6b206574,
    operandWord b 0, operandWord b 1, operandWord b 2, operandWord b 3,
    operandWord b 4, operandWord b 5, operandWord b 6, operandWord b 7,
    0x00000000, 0x00000000, operandWord b 8, operandWord b 9]

/-- CREATE (R101). A refused CREATE leaves the slot exactly as it was (R106); a second CREATE replaces all sixteen words
(R108). -/
def execCreate (slot : BitVec 8) (key nonce : List Byte) (s : State) : Result :=
  if s.nctx ≤ slot.toNat then raiseError .slotOutOfRange s
  else if key.length ≠ 32 ∨ nonce.length ≠ 8 then raiseError .invalidInputLength s
  else complete .empty (s.setContext slot (createWords (key ++ nonce)))

end Sys2Proof.Machine
end

