-- ==== Sys2Proof/Machine/QuarterRound.lean ====
section
/-! DEFINITION. The quarter-round permutation pipeline (spec/42_quarter_round.md), over the working buffer `X`. -/

namespace Sys2Proof.Machine

/-- ADD32 (R120): addition modulo 2^32. -/
def add32 (x y : Word) : Word := x + y

/-- XOR32 (R121). -/
def xor32 (x y : Word) : Word := x ^^^ y

/-- ROTL32 (R122): left circular rotate; `n` is 16, 12, 8 or 7. -/
def rotl32 (x : Word) (n : Nat) : Word := (x <<< n) ||| (x >>> (32 - n))

/-- `QR(a, b, c, d)` (R123): the four steps in strict order, each assignment reading what the one before it left. -/
def quarterRound (a b c d : Fin 16) (x : Block) : Block :=
  let x := x.set a (add32 x[a] x[b])
  let x := x.set d (rotl32 (xor32 x[d] x[a]) 16)
  let x := x.set c (add32 x[c] x[d])
  let x := x.set b (rotl32 (xor32 x[b] x[c]) 12)
  let x := x.set a (add32 x[a] x[b])
  let x := x.set d (rotl32 (xor32 x[d] x[a]) 8)
  let x := x.set c (add32 x[c] x[d])
  x.set b (rotl32 (xor32 x[b] x[c]) 7)

/-- The index groups of the column round, in order (R125). -/
def columnGroups : List (Fin 16 × Fin 16 × Fin 16 × Fin 16) :=
  [(0, 4, 8, 12), (1, 5, 9, 13), (2, 6, 10, 14), (3, 7, 11, 15)]

/-- The index groups of the diagonal round, in order (R126). -/
def diagonalGroups : List (Fin 16 × Fin 16 × Fin 16 × Fin 16) :=
  [(0, 5, 10, 15), (1, 6, 11, 12), (2, 7, 8, 13), (3, 4, 9, 14)]

/-- The quarter-rounds of the groups, one after the other. -/
def runGroups (groups : List (Fin 16 × Fin 16 × Fin 16 × Fin 16)) (x : Block) : Block :=
  groups.foldl (fun x g => quarterRound g.1 g.2.1 g.2.2.1 g.2.2.2 x) x

/-- Column round (R125). -/
def columnRound (x : Block) : Block := runGroups columnGroups x

/-- Diagonal round (R126). -/
def diagonalRound (x : Block) : Block := runGroups diagonalGroups x

/-- Double round (R127): a column round, then a diagonal round. -/
def doubleRound (x : Block) : Block := diagonalRound (columnRound x)

/-- `n` double rounds in sequence. -/
def doubleRounds : Nat → Block → Block
  | 0, x => x
  | n + 1, x => doubleRounds n (doubleRound x)

/-- `PERM` (R128): 10 double rounds, 80 quarter-rounds (DOUBLEROUNDS of R7; 90_conflicts.md C1). -/
def perm (x : Block) : Block := doubleRounds 10 x

end Sys2Proof.Machine
end

