-- ==== Sys2Proof/Machine/Block.lean ====
section
/-! DEFINITION. The block transform, the shared body of NEXTB and NEXTW (spec/43_block_transform.md). -/

namespace Sys2Proof.Machine

/-- Feed-forward (R153): the original words added word by word into the permuted copy. -/
def feedForward (x w : Block) : Block := Vector.zipWith add32 x w

/-- The words `X` holds after copy, permutation and feed-forward (R150 to R153): `out[0..15]`. The counter words added are those
before the advance. -/
def blockWords (w : Block) : Block := feedForward (perm w) w

/-- The word indices in order. -/
def wordIndices : List (Fin 16) := [0, 1, 2, 3, 4, 5, 6, 7, 8, 9, 10, 11, 12, 13, 14, 15]

/-- `SER(out)` (R154): each word packed little-endian at offset `4*i` of a 64-byte buffer, every byte of which is written. -/
def serialize (out : Block) : List Byte :=
  wordIndices.foldl (fun b i => pack out[i] b (4 * i.val)) (List.replicate 64 0)

/-- `INCR` (R155): the counter advance with carry from word 12 into word 13; `none` at counter `2^64 - 1`, where the engine
raises CounterExhausted. -/
def incr (w : Block) : Option Block :=
  if w[12] = 0xFFFFFFFF ∧ w[13] = 0xFFFFFFFF then none
  else if w[12] = 0xFFFFFFFF then some ((w.set 12 0).set 13 (w[13] + 1))
  else some (w.set 12 (w[12] + 1))

/-- NEXTB and NEXTW (R191, R192) but for the form of the payload: `form` gives it from the block, `drawn` from the draw counter
when the counter is exhausted. `X` holds the block in either case, for the advance comes last (R24, R150). -/
def runBlock (form : Block → Payload) (drawn : Nat → Payload) (slot : BitVec 8) (s : State) : Result :=
  match s.context slot with
  | .error e => raiseError e s
  | .ok w =>
    let s := { s with x := blockWords w }
    match incr w with
    | none => raiseCounterExhausted slot w (drawn s.draws) s
    | some w' => complete (form (blockWords w)) (s.setContext slot w')

end Sys2Proof.Machine
end

