-- ==== Sys2Proof/Machine/Output.lean ====
section
/-! DEFINITION. The output commands NEXTB and NEXTW (spec/45_output_commands.md R190 to R192). Their must-be-zero check stands in
`classify` (Decode.lean): a nonzero KLEN or NLEN is no NEXTB (90_conflicts.md C4). -/

namespace Sys2Proof.Machine

/-- NEXTB (R191): one block as 64 bytes. -/
def execNextb (slot : BitVec 8) (s : State) : Result :=
  runBlock (fun out => .bytes (serialize out)) drawBytes slot s

/-- NEXTW (R192): one block as 16 words, in index order. -/
def execNextw (slot : BitVec 8) (s : State) : Result :=
  runBlock (fun out => .words out.toList) drawWords slot s

end Sys2Proof.Machine
end

