-- ==== Sys2Proof/Machine/Dispatch.lean ====
section
/-! DEFINITION. The one match from an instruction to its meaning. -/

namespace Sys2Proof.Machine

def exec (i : Instr) (s : State) : Host.Outcome State Fault Refusal :=
  match i with
  | .create slot key nonce => Sys2Proof.Machine.execCreate slot key nonce s
  | .nextb slot => Sys2Proof.Machine.execNextb slot s
  | .nextw slot => Sys2Proof.Machine.execNextw slot s
  | .seek slot c => Sys2Proof.Machine.execSeek slot c s
  | .tell slot => Sys2Proof.Machine.execTell slot s

end Sys2Proof.Machine
end

