-- ==== Sys2Proof/Machine/Engine.lean ====
section
/-! DEFINITION. The engine's step: it executes one complete command of CMDBUF (spec/10_state.md R31, spec/20_memory.md R58), and
between two such steps bytes and resets arrive (spec/70_reset_and_hazards.md R250, R257). -/

namespace Sys2Proof.Machine

/-- A whole command executes: its row's meaning, or IllegalCommand where it matches none (R77, R78, R222). -/
def execCommand (c : RawCommand) (s : State) : Result :=
  match classify c with
  | .ok i => exec i s
  | .error _ => raiseError .illegalCommand s

/-- What happens while CMDBUF holds no whole command: the next event of the port, and with none the engine has no step
(R31). -/
def awaitBytes (s : State) : Result :=
  match s.port with
  | [] => .fault .awaitingBytes
  | .byte host b :: es => .next (State.acceptByte host b { s with port := es })
  | .reset :: es => .next (State.resetEvent { s with port := es })
  | .idle :: es => .next { s with port := es }

/-- The engine's own turn: a complete command executes and its bytes leave CMDBUF (R31), else it waits. -/
def engineTurn (s : State) : Result :=
  match decode s.cmdbuf with
  | .command c len => execCommand c { s with cmdbuf := s.cmdbuf.drop len }
  | .needMore => awaitBytes s

/-- One step: a reset that is due comes first (R250: between any two engine steps), then the engine's turn. -/
def machineStep (s : State) : Result :=
  match s.port with
  | .reset :: es => .next (State.resetEvent { s with port := es })
  | _ => engineTurn s

end Sys2Proof.Machine
end

