-- ==== Sys2Proof/Machine/Step.lean ====
section
/-! DEFINITION. The step of the machine, and the placing of one table word where the step takes its next command from. -/

namespace Sys2Proof.Machine

/-- One step of the machine: `machineStep` (Machine/Engine.lean). -/
def step (s : State) : Host.Outcome State Fault Refusal := machineStep s

/-- `s` with the command of a table word received in full in CMDBUF, so that the next step executes it
(notes/assumptions/14.md). -/
def State.withFetchWord (s : State) (nbits w : Nat) : State := s.loadCommand (tableBytes nbits w)

end Sys2Proof.Machine
end

