-- ==== Sys2Proof/Safety.lean ====
section
/-! DEFINITION. The terms claims are stated in: a faulted state (spec/60_exceptions.md R228), the invariant of reachable states
(spec/10_state.md R27, R31, R33; spec/20_memory.md R54), and runs over sequences of commands (R58). -/

namespace Sys2Proof.Machine

/-- A state with `STATUS.EXH = 1` is faulted (R228). -/
def State.faulted (s : State) : Bool := s.status.exh

/-- A state a claim may accept as final: `STATUS.EXH = 0` (R228). -/
def State.acceptableFinal (s : State) : Bool := !s.faulted

/-- Words 0 to 3 are SIGMA (R33). -/
def holdsSigma (w : Block) : Bool :=
  decide (w[0] = 0x61707865) && decide (w[1] = 0x3320646e) && decide (w[2] = 0x79622d32) && decide (w[3] = 0x6b206574)

/-- CMDBUF holds at most one command: without its last byte it is not a whole command (R31). -/
def atMostOneCommand (b : List Byte) : Bool := decide (decode b.dropLast = .needMore)

/-- The form R27 and R54 give every response: STATUS bits [31:9] are 0, LAST is one of the six codes, and a payload is 64
bytes, 16 words or 2 words and comes only with LAST 0x00 or, drawn, with LAST 0x05. -/
def Response.wellFormed (r : Response) : Bool :=
  decide (r.status.extractLsb' 9 23 = 0) && decide ((r.status.extractLsb' 0 8).toNat ≤ 5) &&
    match r.payload with
    | .empty => true
    | .bytes bs =>
      decide (bs.length = 64) && (decide (r.status.extractLsb' 0 8 = 0x00) || decide (r.status.extractLsb' 0 8 = 0x05))
    | .words ws =>
      (decide (ws.length = 16) && (decide (r.status.extractLsb' 0 8 = 0x00) || decide (r.status.extractLsb' 0 8 = 0x05))) ||
        (decide (ws.length = 2) && decide (r.status.extractLsb' 0 8 = 0x00))

/-- The invariant of every reachable state. -/
structure EngineInv (s : State) : Prop where
  /-- NCTX is in its range (R8). -/
  nctx_range : 1 ≤ s.nctx ∧ s.nctx ≤ 256
  /-- Every valid slot holds the constants (R33). -/
  sigma : ∀ w, some w ∈ s.slots → holdsSigma w = true
  /-- LAST takes only the codes 0x00 to 0x05 (R27). -/
  last_code : s.status.last.toNat ≤ 5
  /-- CMDBUF holds the bytes of at most one command (R31). -/
  one_command : atMostOneCommand s.cmdbuf = true
  /-- Every response sent has the form of R54. -/
  responses : ∀ r ∈ s.out, r.wellFormed = true

/-- `s` once a command has ended that writes no state but STATUS.LAST: LAST is `last`, and one response has been sent to the host
the command came from, STATUS first and the payload after it (R54, R226). -/
def State.answered (s : State) (last : BitVec 8) (p : Payload) : State :=
  { s with
    status := { s.status with last := last },
    out := s.out ++ [{ host := s.client, status := Status.word { s.status with last := last }, payload := p }] }

/-- The commands one after the other, each on the state the one before it left (R58). -/
def runInstrs : List Instr → State → Result
  | [], s => .next s
  | i :: is, s =>
    match exec i s with
    | .next t => runInstrs is t
    | .fault r => .fault r
    | .refused r => .refused r

/-- `runInstrs` for commands that come from the named hosts (R9, R58). -/
def runHosted : List (Nat × Instr) → State → Result
  | [], s => .next s
  | (h, i) :: is, s =>
    match exec i { s with client := h } with
    | .next t => runHosted is t
    | .fault r => .fault r
    | .refused r => .refused r

/-- What a command asks of `slot`, when it is one of those that drive it (R195): `none` for a block, in either form, and the new
counter for a SEEK. CREATE and TELL, and every command on another slot, drive it in no way. -/
def drivesSlot (slot : BitVec 8) (i : Instr) : Option (Option DWord) :=
  if i.slot = slot then
    match i with
    | .create _ _ _ => none
    | .nextb _ => some none
    | .nextw _ => some none
    | .seek _ c => some (some c)
    | .tell _ => none
  else none

/-- The payload of a response as bytes, each word packed (R55). -/
def Response.payloadBytes (r : Response) : List Byte :=
  match r.payload with
  | .empty => []
  | .bytes bs => bs
  | .words ws => ws.flatMap fun v => pack v [0, 0, 0, 0] 0

/-- The payloads that the commands driving `slot` returned, in order, where `rs` are the responses to the commands `is`. -/
def payloadsOf (slot : BitVec 8) (is : List Instr) (rs : List Response) : List (List Byte) :=
  (is.zip rs).filterMap fun p => (drivesSlot slot p.1).map fun _ => p.2.payloadBytes

/-- The bytes of the hosts' commands as they arrive at the command port, whole command after whole command (R58, R81). -/
def portStream (cmds : List (Nat × Instr)) : List PortEvent :=
  cmds.flatMap fun c => (encode c.2).map (PortEvent.byte c.1)

/-- The steps a stream of commands takes: one for each byte the port takes, and one for each command that executes. -/
def streamSteps (cmds : List (Nat × Instr)) : Nat := (cmds.map fun c => (encode c.2).length + 1).sum

end Sys2Proof.Machine
end

