-- ==== Sys2Proof/Certificates/Slice0/Obligations.lean ====
section
/-! DEFINITION. The statements for the provers. They come from the numbered rules of spec/, and none rests on a value the model
chose: the parameters and the free values are whatever the state and Config hold. Where a clause rests on a choice of the model that is
no value, its docstring says so and names the log entry. -/

open Sys2Proof Sys2Proof.Machine

/-! ## STATUS and reset -/

/-- R27: where the fields of STATUS lie in the register a host reads, and that its other bits read 0. -/
def Obligations.StatusWordHoldsLastExhAndZeros : Prop :=
  ∀ st : Status, st.word.extractLsb' 0 8 = st.last ∧ st.word.getLsbD 8 = st.exh ∧ st.word.extractLsb' 9 23 = 0

/-- R35 but for `X`, to which the rule gives no value: whatever the parameters, reset leaves every slot invalid and without
words, STATUS 0 and CMDBUF empty. -/
def Obligations.ResetLeavesEverySlotInvalid : Prop :=
  ∀ p : Params,
    (State.resetWith p).params = p ∧
    (∀ k < p.nctx, (State.resetWith p).slots[k]? = some none ∧ (State.resetWith p).valid k = false) ∧
    (State.resetWith p).status.word = 0 ∧
    (State.resetWith p).cmdbuf = []

/-- R250, R35, R252: a reset keeps the parameters and leaves every slot invalid, STATUS 0 and CMDBUF empty, and sends no response. The
model's choice: a reset at the head of the schedule `port` takes the next step whatever CMDBUF holds, a whole command included
(notes/assumptions/5.md), and leaves the rest of the schedule as it is (notes/assumptions/18.md). -/
def Obligations.ResetEventKeepsTheParameters : Prop :=
  ∀ (s : State) (es : List PortEvent), s.port = .reset :: es →
    ∃ t, step s = .next t ∧
      t.nctx = s.nctx ∧ t.counterAccess = s.counterAccess ∧
      (∀ k < s.nctx, t.slots[k]? = some none) ∧ t.status.word = 0 ∧ t.cmdbuf = [] ∧
      t.out = s.out ∧ t.port = es

/-- R20: the parameters are fixed for the life of the engine; no step of any kind changes them. -/
def Obligations.NoStepChangesTheParameters : Prop :=
  ∀ s t : State, step s = .next t → t.params = s.params

/-! ## Word operations, quarter-round, rounds -/

/-- R120, R121: ADD32 is addition modulo 2^32 and XOR32 is bitwise, with the corner cases the rules name. -/
def Obligations.AddWrapsAndXorIsBitwise : Prop :=
  (∀ x y : Word, (add32 x y).toNat = (x.toNat + y.toNat) % 2 ^ 32 ∧ add32 x 0 = x) ∧
  add32 0xFFFFFFFF 0x00000001 = 0x00000000 ∧ add32 0xFFFFFFFF 0xFFFFFFFF = 0xFFFFFFFE ∧
  (∀ (x y : Word) (i : Nat), (xor32 x y).getLsbD i = (x.getLsbD i != y.getLsbD i)) ∧
  ∀ x : Word, xor32 x x = 0 ∧ xor32 x 0 = x

/-- R122: ROTL32 is the formula of the rule and moves bit `i` to bit `(i + n) mod 32`, with the corner cases the rule names. -/
def Obligations.RotateMovesEveryBitAndLosesNone : Prop :=
  (∀ (x : Word) (n : Nat), n ∈ [16, 12, 8, 7] →
    (rotl32 x n).toNat = ((x.toNat <<< n) ||| (x.toNat >>> (32 - n))) % 2 ^ 32 ∧
    ∀ i < 32, (rotl32 x n).getLsbD ((i + n) % 32) = x.getLsbD i) ∧
  rotl32 0x80000001 16 = 0x00018000 ∧ rotl32 0x80000001 12 = 0x00001800 ∧
  rotl32 0x80000001 8 = 0x00000180 ∧ rotl32 0x80000001 7 = 0x000000C0 ∧
  rotl32 0x12345678 16 = 0x56781234 ∧ rotl32 0x12345678 7 = 0x1A2B3C09

/-- R123: on four distinct positions the quarter-round is the four steps in strict order, each reading what the one before it
left, and no other word changes. -/
def Obligations.QuarterRoundTakesItsFourSteps : Prop :=
  ∀ (a b c d : Fin 16) (x : Block), [a, b, c, d].Nodup →
    ∃ a1 d1 c1 b1 a2 d2 c2 b2 : Word,
      (a1 = add32 x[a] x[b] ∧ d1 = rotl32 (xor32 x[d] a1) 16) ∧
      (c1 = add32 x[c] d1 ∧ b1 = rotl32 (xor32 x[b] c1) 12) ∧
      (a2 = add32 a1 b1 ∧ d2 = rotl32 (xor32 d1 a2) 8) ∧
      (c2 = add32 c1 d2 ∧ b2 = rotl32 (xor32 b1 c2) 7) ∧
      (quarterRound a b c d x)[a] = a2 ∧ (quarterRound a b c d x)[b] = b2 ∧
      (quarterRound a b c d x)[c] = c2 ∧ (quarterRound a b c d x)[d] = d2 ∧
      ∀ i : Fin 16, i ∉ [a, b, c, d] → (quarterRound a b c d x)[i] = x[i]

/-- R125, R126, R127: the column round and the diagonal round are their four quarter-rounds in the order of the rules, a double round
is a column round followed by a diagonal round; and with R128, PERM is ten double rounds. -/
def Obligations.RoundsRunTheirQuarterRoundsInOrder : Prop :=
  ∀ x : Block,
    columnRound x =
      quarterRound 3 7 11 15 (quarterRound 2 6 10 14 (quarterRound 1 5 9 13 (quarterRound 0 4 8 12 x))) ∧
    diagonalRound x =
      quarterRound 3 4 9 14 (quarterRound 2 7 8 13 (quarterRound 1 6 11 12 (quarterRound 0 5 10 15 x))) ∧
    doubleRound x = diagonalRound (columnRound x) ∧
    perm x = (doubleRound^[10]) x

/-- R129, and what R131 says follows from it: the four indices of every group are distinct and the groups of each round partition
{0..15}; so the four quarter-rounds of one round commute, any order of them is the round, and so is running them at once as four
lanes, each word taken from the one quarter-round that touches it. -/
def Obligations.RoundIsFourIndependentLanes : Prop :=
  ((∀ g ∈ columnGroups ++ diagonalGroups, [g.1, g.2.1, g.2.2.1, g.2.2.2].Nodup) ∧
    ∀ i : Fin 16,
      (columnGroups.flatMap fun g => [g.1, g.2.1, g.2.2.1, g.2.2.2]).count i = 1 ∧
      (diagonalGroups.flatMap fun g => [g.1, g.2.1, g.2.2.1, g.2.2.2]).count i = 1) ∧
  (∀ (l : List (Fin 16 × Fin 16 × Fin 16 × Fin 16)) (x : Block), l.Perm columnGroups → runGroups l x = columnRound x) ∧
  (∀ (l : List (Fin 16 × Fin 16 × Fin 16 × Fin 16)) (x : Block), l.Perm diagonalGroups → runGroups l x = diagonalRound x) ∧
  (∀ (x : Block) (g : Fin 16 × Fin 16 × Fin 16 × Fin 16) (i : Fin 16), g ∈ columnGroups →
    i ∈ [g.1, g.2.1, g.2.2.1, g.2.2.2] → (columnRound x)[i] = (quarterRound g.1 g.2.1 g.2.2.1 g.2.2.2 x)[i]) ∧
  ∀ (x : Block) (g : Fin 16 × Fin 16 × Fin 16 × Fin 16) (i : Fin 16), g ∈ diagonalGroups →
    i ∈ [g.1, g.2.1, g.2.2.1, g.2.2.2] → (diagonalRound x)[i] = (quarterRound g.1 g.2.1 g.2.2.1 g.2.2.2 x)[i]

/-! ## Codec -/

/-- R182: PACK writes the four bytes of the word, least significant first, at `off`, and no other byte. -/
def Obligations.PackWritesExactlyFourBytes : Prop :=
  ∀ (v : Word) (b : List Byte) (off : Nat), off + 3 < b.length →
    (pack v b off).length = b.length ∧
    (pack v b off)[off]? = some (v.extractLsb' 0 8) ∧ (pack v b off)[off + 1]? = some (v.extractLsb' 8 8) ∧
    (pack v b off)[off + 2]? = some (v.extractLsb' 16 8) ∧ (pack v b off)[off + 3]? = some (v.extractLsb' 24 8) ∧
    ∀ j, j < off ∨ off + 4 ≤ j → (pack v b off)[j]? = b[j]?

/-- R183: UNPACK after PACK gives the word back, and PACK after UNPACK writes into any other string the same four bytes. -/
def Obligations.CodecRoundTripsBothWays : Prop :=
  (∀ (v : Word) (b : List Byte) (off : Nat) (h : off + 3 < (pack v b off).length), unpack (pack v b off) off h = v) ∧
  ∀ (b b' : List Byte) (off : Nat) (h : off + 3 < b.length), off + 3 < b'.length →
    ∀ k < 4, (pack (unpack b off h) b' off)[off + k]? = b[off + k]?

/-- R51: MemRead is the little-endian sum over the operand string and equals UNPACK at width 4; MemWrite sets byte `off + k` to
bits `[8k+7 : 8k]` and no other byte, and PACK is MemWrite at width 4 (R182). The accesses of the commands, and that they lie inside
their strings: CREATE's ten words and SEEK's counter are MemReads of the operand string, NEXTB's payload is sixteen MemWrites. -/
def Obligations.MemReadAndMemWriteAreLittleEndian : Prop :=
  (∀ (b : List Byte) (off n : Nat) (h : off + n ≤ b.length), n ∈ [1, 4, 8] →
    memRead b off n = ((List.finRange n).map fun k => (b[off + k.val]'(by omega)).toNat * 2 ^ (8 * k.val)).sum) ∧
  (∀ (b : List Byte) (off : Nat) (h : off + 3 < b.length), memRead b off 4 = (unpack b off h).toNat) ∧
  (∀ (b : List Byte) (off n v : Nat), n ∈ [1, 4, 8] → off + n ≤ b.length →
    (memWrite b off n v).length = b.length ∧
    (∀ k < n, (memWrite b off n v)[off + k]? = some (BitVec.ofNat 8 (v / 2 ^ (8 * k)))) ∧
    ∀ j, j < off ∨ off + n ≤ j → (memWrite b off n v)[j]? = b[j]?) ∧
  (∀ (v : Word) (b : List Byte) (off : Nat), off + 3 < b.length → pack v b off = memWrite b off 4 v.toNat) ∧
  (∀ (b : List Byte) (c : RawCommand) (len : Nat), decode b = .command c len →
    (c.op = 0x01 → c.klen = 32 → c.nlen = 8 →
      c.operand.length = 40 ∧
      (∃ key nonce, classify c = .ok (.create c.slot key nonce) ∧ key ++ nonce = c.operand) ∧
      (∀ (j : Nat) (_ : j < 8), 4 * j + 4 ≤ c.operand.length ∧
        (createWords c.operand)[4 + j] = BitVec.ofNat 32 (memRead c.operand (4 * j) 4)) ∧
      ∀ (j : Nat) (_ : j < 2), 32 + 4 * j + 4 ≤ c.operand.length ∧
        (createWords c.operand)[14 + j] = BitVec.ofNat 32 (memRead c.operand (32 + 4 * j) 4)) ∧
    (c.op = 0x04 →
      c.operand.length = 8 ∧
      (c.klen = 0 → c.nlen = 0 → classify c = .ok (.seek c.slot (BitVec.ofNat 64 (memRead c.operand 0 8)))))) ∧
  ∀ out : Block,
    (∀ i < 16, 4 * i + 4 ≤ (serialize out).length) ∧
    serialize out = (List.finRange 16).foldl (fun b i => memWrite b (4 * i.val) 4 out[i].toNat) (List.replicate 64 0)

/-! ## Encoding -/

/-- R71, R74, R77: a byte string is not yet a command while it is shorter than four bytes or than the length its first four bytes
announce; else byte 0 is OP, byte 1 SLOT, byte 2 KLEN, byte 3 NLEN, and the operand string is bytes 4 to L - 1. -/
def Obligations.DecoderReadsTheFieldsAndTheLength : Prop :=
  (∀ b : List Byte, b.length < 4 → decode b = .needMore) ∧
  ∀ (op slot klen nlen : Byte) (r : List Byte) (len : Nat),
    len = (if op = 0x01 then 4 + klen.toNat + nlen.toNat else if op = 0x04 then 12 else 4) →
    (r.length + 4 < len → decode (op :: slot :: klen :: nlen :: r) = .needMore) ∧
    (len ≤ r.length + 4 → ∃ operand, decode (op :: slot :: klen :: nlen :: r) =
        .command { op := op, slot := slot, klen := klen, nlen := nlen, operand := operand } len ∧
      operand.length = len - 4 ∧ ∀ j < len - 4, operand[j]? = r[j]?)

/-- Words written out from the spec's encodings (R81, V10, V40) decode to the commands they stand for. A sanity statement. That the
words of CREATE and SEEK, whose operand bytes lie above the 32 bits given, decode to operands of zeros is the model's choice
(notes/assumptions/14.md); the engine takes those four bytes alone as an incomplete command (R77). -/
def Obligations.WrittenOutWordsDecode : Prop :=
  decodeTableWord 32 0x00000103 = some (.nextw 1) ∧ decodeTableWord 32 0x00000002 = some (.nextb 0) ∧
  decodeTableWord 32 0x00000005 = some (.tell 0) ∧ decodeTableWord 32 0x00000004 = some (.seek 0 0) ∧
  decodeTableWord 32 0x08200001 = some (.create 0 (List.replicate 32 0) (List.replicate 8 0)) ∧
  decodeTableWord 32 0x00010002 = none ∧ decodeTableWord 32 0x01000102 = none ∧ decodeTableWord 32 0x082005ff = none

/-- R81 with R77: decoding the encoded bytes of any instruction that can be spelled, whatever follows them, gives a command of
exactly their length that is that instruction. -/
def Obligations.DecodeOfEncodeIsTheInstruction : Prop :=
  ∀ (i : Instr) (rest : List Byte), i.wellFormed = true →
    ∃ c, decode (encode i ++ rest) = .command c (encode i).length ∧ classify c = .ok i

/-- The other direction: whatever bytes decode to an instruction, they are its encoding, and the instruction can be spelled. So no
bit of a command is dropped and no two spellings mean one instruction. -/
def Obligations.EncodeOfDecodeIsTheBytes : Prop :=
  ∀ (b : List Byte) (c : RawCommand) (len : Nat) (i : Instr),
    decode b = .command c len → classify c = .ok i → i.wellFormed = true ∧ b.take len = encode i

/-! ## The step -/

/-- A step runs the decoded instruction: when CMDBUF holds a whole legal command and no reset is due, the step is `exec` of it on
the state whose CMDBUF its bytes have left; in a well-formed state CMDBUF is then empty (R31). The model's choices: in a state no run
reaches, with further bytes after the command, those stay (notes/assumptions/10.md); a reset at the head of the schedule comes first, and a
byte or a pause there waits for the command (notes/assumptions/5.md, 6.md). -/
def Obligations.StepRunsTheDecodedInstruction : Prop :=
  ∀ (s : State) (c : RawCommand) (len : Nat) (i : Instr),
    (∀ es, s.port ≠ .reset :: es) → decode s.cmdbuf = .command c len → classify c = .ok i →
    step s = exec i { s with cmdbuf := s.cmdbuf.drop len } ∧
    (EngineInv s → step s = exec i { s with cmdbuf := [] })

/-- The placing of a table word, the model's own (notes/assumptions/14.md): the very next step runs the instruction the decoder reads
from it. -/
def Obligations.PlacedTableWordRunsNext : Prop :=
  ∀ (s : State) (nbits w : Nat) (i : Instr), decodeTableWord nbits w = some i →
    step (s.withFetchWord nbits w) = exec i { s with cmdbuf := [], port := s.port.dropWhile PortEvent.isReset }

/-- R31, R257: while CMDBUF holds no whole command the engine has no step of its own: it takes the next byte that arrives into
CMDBUF, a pause passes, and with nothing to arrive it is stuck. The list of what arrives and the named stop are the model's
(notes/assumptions/5.md, 7.md). -/
def Obligations.IncompleteCommandWaits : Prop :=
  ∀ s : State, decode s.cmdbuf = .needMore →
    (s.port = [] → step s = .fault .awaitingBytes) ∧
    (∀ h b es, s.port = .byte h b :: es →
      step s = .next { s with cmdbuf := s.cmdbuf ++ [b], client := h, port := es }) ∧
    ∀ es, s.port = .idle :: es → step s = .next { s with port := es }

/-- R222: an illegal command (R78) in CMDBUF ends with IllegalCommand, its bytes by the length of R74 consumed, nothing but
STATUS.LAST changed; and no other command ends so. -/
def Obligations.IllegalCommandIsConsumedAndReported : Prop :=
  ∀ (s : State) (c : RawCommand) (len : Nat), (∀ es, s.port ≠ .reset :: es) → decode s.cmdbuf = .command c len →
    let illegal : Prop := c.op = 0x00 ∨ 0x06 ≤ c.op.toNat ∨ ((c.op = 0x04 ∨ c.op = 0x05) ∧ s.counterAccess = false) ∨
      (c.op ∈ [0x02, 0x03, 0x04, 0x05] ∧ (c.klen ≠ 0 ∨ c.nlen ≠ 0))
    (illegal → step s = .next (State.answered { s with cmdbuf := s.cmdbuf.drop len } 0x02 .empty)) ∧
    (¬illegal → ∃ t, step s = .next t ∧ t.status.last ≠ 0x02 ∧ t.cmdbuf = s.cmdbuf.drop len)

/-- R31, R58, R9: hosts' commands that arrive whole, one after the other, execute in their order of arrival, each completely and
each on the state the one before it left, and each answers the host that sent it. That taking a byte is a step of its own is the
model's reading (notes/assumptions/6.md). -/
def Obligations.StreamRunsItsCommandsInOrder : Prop :=
  ∀ (cmds : List (Nat × Instr)) (s : State),
    (∀ c ∈ cmds, c.2.wellFormed = true) → s.cmdbuf = [] → s.port = portStream cmds →
    core.run (streamSteps cmds) s = runHosted cmds { s with port := [] }

/-! ## CREATE -/

/-- R101, R102, R103, R105, R106, R107: CREATE on a slot in range with a 32-byte key and an 8-byte nonce writes the sixteen words
and makes the slot valid; with any other length, or on a slot out of range, it is refused and changes only STATUS.LAST; and
OP 0x01 is never illegal. -/
def Obligations.CreateBuildsTheContextOrRefuses : Prop :=
  ∀ (s : State) (slot : BitVec 8) (key nonce : List Byte),
    (s.nctx ≤ slot.toNat → exec (.create slot key nonce) s = .next (s.answered 0x03 .empty)) ∧
    (slot.toNat < s.nctx → key.length ≠ 32 ∨ nonce.length ≠ 8 →
      exec (.create slot key nonce) s = .next (s.answered 0x01 .empty)) ∧
    (∀ (_ : slot.toNat < s.nctx) (hk : key.length = 32) (hn : nonce.length = 8),
      ∃ w : Block,
        exec (.create slot key nonce) s =
          .next (State.answered { s with slots := s.slots.set slot.toNat (some w) } 0x00 .empty) ∧
        w[0] = 0x61707865 ∧ w[1] = 0x3320646e ∧ w[2] = 0x79622d32 ∧ w[3] = 0x6b206574 ∧
        (∀ (j : Nat) (hj : j < 8), w[4 + j] = unpack key (4 * j) (by omega)) ∧
        w[12] = 0 ∧ w[13] = 0 ∧
        ∀ (j : Nat) (hj : j < 2), w[14 + j] = unpack nonce (4 * j) (by omega)) ∧
    ∀ c : RawCommand, c.op = 0x01 → ∃ k n, classify c = .ok (.create c.slot k n)

/-! ## The block transform, NEXTB and NEXTW -/

/-- R155: the counter advance, whole: no advance at `2^64 - 1`, the carry from word 12 into word 13, no other word. -/
def Obligations.CounterAdvanceCarriesByExactlyOne : Prop :=
  ∀ w : Block,
    (w[12] = 0xFFFFFFFF ∧ w[13] = 0xFFFFFFFF → incr w = none) ∧
    (w[12] = 0xFFFFFFFF → w[13] ≠ 0xFFFFFFFF →
      ∃ w', incr w = some w' ∧ w'[12] = 0 ∧ w'[13].toNat = w[13].toNat + 1) ∧
    (w[12] ≠ 0xFFFFFFFF → ∃ w', incr w = some w' ∧ w'[12].toNat = w[12].toNat + 1 ∧ w'[13] = w[13]) ∧
    ∀ w', incr w = some w' → (blockCounter w').toNat = (blockCounter w).toNat + 1 ∧
      ∀ i : Fin 16, i ≠ 12 → i ≠ 13 → w'[i] = w[i]

/-- R150, R151, R152, R153: NEXTW on a valid slot below counter `2^64 - 1` completes with the sixteen words of ten double rounds
on a copy, the original words added; the counter is one more, and nothing else but `X` and STATUS.LAST changes. -/
def Obligations.NextwReturnsTheBlockWords : Prop :=
  ∀ (s : State) (slot : BitVec 8) (w : Block),
    s.slots[slot.toNat]? = some (some w) → (blockCounter w).toNat < 2 ^ 64 - 1 →
    ∃ block w' : Block,
      exec (.nextw slot) s =
        .next (State.answered { s with x := block, slots := s.slots.set slot.toNat (some w') } 0x00 (.words block.toList)) ∧
      (∀ i : Fin 16, block[i] = ((doubleRound^[10]) w)[i] + w[i]) ∧
      (blockCounter w').toNat = (blockCounter w).toNat + 1 ∧
      ∀ i : Fin 16, i ≠ 12 → i ≠ 13 → w'[i] = w[i]

/-- R154: NEXTB on a valid slot below counter `2^64 - 1` completes with the block as 64 bytes, byte `4i + k` being bits `[8k+7 : 8k]`
of word `i`, where NEXTW returns the block's words themselves; the counter is one more, and nothing else but `X` and STATUS.LAST
changes. -/
def Obligations.NextbReturnsTheSerializedBlock : Prop :=
  ∀ (s : State) (slot : BitVec 8) (w : Block),
    s.slots[slot.toNat]? = some (some w) → (blockCounter w).toNat < 2 ^ 64 - 1 →
    ∃ (block w' : Block) (bs : List Byte),
      exec (.nextb slot) s =
        .next (State.answered { s with x := block, slots := s.slots.set slot.toNat (some w') } 0x00 (.bytes bs)) ∧
      exec (.nextw slot) s =
        .next (State.answered { s with x := block, slots := s.slots.set slot.toNat (some w') } 0x00 (.words block.toList)) ∧
      (∀ i : Fin 16, block[i] = ((doubleRound^[10]) w)[i] + w[i]) ∧
      bs.length = 64 ∧ (∀ (i : Fin 16) (k : Fin 4), bs[4 * i.val + k.val]? = some (block[i].extractLsb' (8 * k.val) 8)) ∧
      (blockCounter w').toNat = (blockCounter w).toNat + 1 ∧
      ∀ i : Fin 16, i ≠ 12 → i ≠ 13 → w'[i] = w[i]

/-- R55: for one state, the bytes NEXTB returns are the packed words NEXTW returns, word 0 first, and the two leave the same
state behind. -/
def Obligations.ByteAndWordFormsAgree : Prop :=
  ∀ (s : State) (slot : BitVec 8) (w : Block),
    s.slots[slot.toNat]? = some (some w) → (blockCounter w).toNat < 2 ^ 64 - 1 →
    ∃ (u : State) (bs : List Byte) (ws : List Word),
      exec (.nextb slot) s = .next (u.answered 0x00 (.bytes bs)) ∧
      exec (.nextw slot) s = .next (u.answered 0x00 (.words ws)) ∧
      bs = ws.flatMap fun v => pack v [0, 0, 0, 0] 0

/-- R157: the block is a function of the key, the nonce and the counter alone: two valid slots that agree on them return the same
block, in states that need agree on nothing else; and no word but the counter's and no other slot changes. -/
def Obligations.BlockDependsOnKeyNonceAndCounterAlone : Prop :=
  ∀ (s₁ s₂ : State) (a b : BitVec 8) (v w : Block),
    s₁.slots[a.toNat]? = some (some v) → s₂.slots[b.toNat]? = some (some w) →
    holdsSigma v = true → holdsSigma w = true →
    (∀ (j : Nat) (_ : j < 8), v[4 + j] = w[4 + j]) → v[14] = w[14] → v[15] = w[15] → blockCounter v = blockCounter w →
    (blockCounter v).toNat < 2 ^ 64 - 1 →
    ∃ t₁ t₂ r₁ r₂, exec (.nextw a) s₁ = .next t₁ ∧ exec (.nextw b) s₂ = .next t₂ ∧
      t₁.out = s₁.out ++ [r₁] ∧ t₂.out = s₂.out ++ [r₂] ∧ r₁.payload = r₂.payload ∧
      (∀ k, k ≠ a.toNat → t₁.slots[k]? = s₁.slots[k]?) ∧
      ∃ v', t₁.slots[a.toNat]? = some (some v') ∧ ∀ i : Fin 16, i ≠ 12 → i ≠ 13 → v'[i] = v[i]

/-- R228: NEXTB and NEXTW at counter `2^64 - 1` complete with LAST 0x05 and EXH 1. The two counter words and the payload are draws:
constants of Config without a body, so nothing in Lean gives them a value, and a wrap, a zero or a block would make this statement
unprovable. Every other word, valid bit and slot is unchanged, and the state is faulted. Which draws they are, and that the next fault
takes others (`draws`), is the model's form of R12's draw (notes/assumptions/4.md). -/
def Obligations.ExhaustionLeavesFreeCounterAndPayload : Prop :=
  ∀ (s : State) (slot : BitVec 8) (w : Block),
    s.slots[slot.toNat]? = some (some w) → (blockCounter w).toNat = 2 ^ 64 - 1 →
    let d := s.draws
    let t := fun (x : Block) (p : Payload) =>
      { s with
        slots := s.slots.set slot.toNat (some ((w.set 12 (Config.freeWord d)).set 13 (Config.freeWord (d + 1)))),
        status := { last := 0x05, exh := true }, x := x, draws := d + 66,
        out := s.out ++ [{ host := s.client, status := 0x00000105, payload := p }] }
    (∃ x, exec (.nextb slot) s = .next (t x (.bytes ((List.range 64).map fun k => Config.freeByte (d + 2 + k))))) ∧
    (∃ x, exec (.nextw slot) s = .next (t x (.words ((List.range 16).map fun k => Config.freeWord (d + 2 + k))))) ∧
    ∀ x p, (t x p).faulted = true ∧ (t x p).acceptableFinal = false

/-! ## SEEK and TELL -/

/-- R193: SEEK, whole: illegal without COUNTER_ACCESS or with a nonzero length field, then the slot's errors, else words 12 and 13
become the operand's halves, least significant byte first, and nothing else but STATUS.LAST changes. -/
def Obligations.SeekSetsTheCounterOrStops : Prop :=
  ∀ (s : State) (slot : BitVec 8) (c : DWord),
    (s.counterAccess = false → exec (.seek slot c) s = .next (s.answered 0x02 .empty)) ∧
    (s.counterAccess = true → s.nctx ≤ slot.toNat → exec (.seek slot c) s = .next (s.answered 0x03 .empty)) ∧
    (s.counterAccess = true → s.slots[slot.toNat]? = some none → exec (.seek slot c) s = .next (s.answered 0x04 .empty)) ∧
    (∀ w, s.counterAccess = true → s.slots[slot.toNat]? = some (some w) →
      ∃ w' : Block,
        exec (.seek slot c) s =
          .next (State.answered { s with slots := s.slots.set slot.toNat (some w') } 0x00 .empty) ∧
        w'[12] = c.extractLsb' 0 32 ∧ w'[13] = c.extractLsb' 32 32 ∧ ∀ i : Fin 16, i ≠ 12 → i ≠ 13 → w'[i] = w[i]) ∧
    (∀ r : RawCommand, r.op = 0x04 → r.klen ≠ 0 ∨ r.nlen ≠ 0 → execCommand r s = .next (s.answered 0x02 .empty)) ∧
    ∀ (b : List Byte) (r : RawCommand) (len : Nat), decode b = .command r len → r.op = 0x04 → r.klen = 0 → r.nlen = 0 →
      ∃ v : DWord, execCommand r s = exec (.seek r.slot v) s ∧
        ∀ k < 8, r.operand[k]? = some (v.extractLsb' (8 * k) 8)

/-- R194: TELL, whole: illegal without COUNTER_ACCESS or with a nonzero length field, then the slot's errors, else the two counter
words, low first, and nothing but STATUS.LAST changes. -/
def Obligations.TellReturnsTheCounterOrStops : Prop :=
  ∀ (s : State) (slot : BitVec 8),
    (s.counterAccess = false → exec (.tell slot) s = .next (s.answered 0x02 .empty)) ∧
    (s.counterAccess = true → s.nctx ≤ slot.toNat → exec (.tell slot) s = .next (s.answered 0x03 .empty)) ∧
    (s.counterAccess = true → s.slots[slot.toNat]? = some none → exec (.tell slot) s = .next (s.answered 0x04 .empty)) ∧
    (∀ w, s.counterAccess = true → s.slots[slot.toNat]? = some (some w) →
      exec (.tell slot) s = .next (s.answered 0x00 (.words [w[12], w[13]]))) ∧
    (∀ r : RawCommand, r.op = 0x05 → r.klen ≠ 0 ∨ r.nlen ≠ 0 → execCommand r s = .next (s.answered 0x02 .empty)) ∧
    ∀ r : RawCommand, r.op = 0x05 → r.klen = 0 → r.nlen = 0 → execCommand r s = exec (.tell r.slot) s

/-! ## Errors, flags and responses, over all commands -/

/-- R225: the four commands that need a context, on a slot in range that is not valid, end with NoState. -/
def Obligations.InvalidSlotAnswersNoState : Prop :=
  ∀ (s : State) (slot : BitVec 8), s.slots[slot.toNat]? = some none →
    exec (.nextb slot) s = .next (s.answered 0x04 .empty) ∧ exec (.nextw slot) s = .next (s.answered 0x04 .empty) ∧
    (s.counterAccess = true → ∀ c, exec (.seek slot c) s = .next (s.answered 0x04 .empty)) ∧
    (s.counterAccess = true → exec (.tell slot) s = .next (s.answered 0x04 .empty))

/-- R223: every legal command whose slot is NCTX or more ends with SlotOutOfRange. -/
def Obligations.AbsentSlotAnswersSlotOutOfRange : Prop :=
  ∀ (s : State) (i : Instr), s.nctx ≤ i.slot.toNat →
    (s.counterAccess = true ∨ (∀ slot c, i ≠ .seek slot c) ∧ ∀ slot, i ≠ .tell slot) →
    exec i s = .next (s.answered 0x03 .empty)

/-- R231: every command reports exactly one code, the first that applies in the order of the rule, and a failed check has no other
effect. -/
def Obligations.FirstApplicableCodeIsReported : Prop :=
  ∀ (b : List Byte) (c : RawCommand) (len : Nat) (s : State), decode b = .command c len →
    let illegal : Prop := c.op = 0x00 ∨ 0x06 ≤ c.op.toNat ∨ ((c.op = 0x04 ∨ c.op = 0x05) ∧ s.counterAccess = false) ∨
      (c.op ∈ [0x02, 0x03, 0x04, 0x05] ∧ (c.klen ≠ 0 ∨ c.nlen ≠ 0))
    let badLength : Prop := c.op = 0x01 ∧ (c.klen ≠ 32 ∨ c.nlen ≠ 8)
    let noState : Prop := c.op ≠ 0x01 ∧ s.valid c.slot.toNat = false
    let atEnd : Prop := (c.op = 0x02 ∨ c.op = 0x03) ∧
      ∃ w, s.slots[c.slot.toNat]? = some (some w) ∧ (blockCounter w).toNat = 2 ^ 64 - 1
    ∃ t, execCommand c s = .next t ∧
      (illegal → t = s.answered 0x02 .empty) ∧
      (¬illegal → s.nctx ≤ c.slot.toNat → t = s.answered 0x03 .empty) ∧
      (¬illegal → c.slot.toNat < s.nctx → badLength → t = s.answered 0x01 .empty) ∧
      (¬illegal → c.slot.toNat < s.nctx → ¬badLength → noState → t = s.answered 0x04 .empty) ∧
      (¬illegal → c.slot.toNat < s.nctx → ¬badLength → ¬noState → atEnd → t.status.last = 0x05) ∧
      (¬illegal → c.slot.toNat < s.nctx → ¬badLength → ¬noState → ¬atEnd → t.status.last = 0x00)

/-- R226: a command that ends with an error code has written STATUS.LAST and nothing else, has answered with STATUS alone, and
the engine goes on. -/
def Obligations.ErrorsChangeNothingButLast : Prop :=
  ∀ (c : RawCommand) (s : State), ∃ t, execCommand c s = .next t ∧
    ∀ code ∈ ([0x01, 0x02, 0x03, 0x04] : List (BitVec 8)), t.status.last = code → t = s.answered code .empty

/-- R54: every command sends exactly one response, STATUS as it left it first, then its payload: 64 bytes, 16 words or the two
counter words when it succeeds, nothing when it ends with an error, and a payload of the same size when it exhausts the counter. R9: the
response goes to the host that sent the command, which is, by the model's reading, the host of its last byte (notes/assumptions/8.md). -/
def Obligations.EveryCommandSendsOneResponse : Prop :=
  ∀ (i : Instr) (s : State), ∃ t r,
    exec i s = .next t ∧ t.out = s.out ++ [r] ∧ r.host = s.client ∧ r.status = t.status.word ∧
    (∃ items, r.portItems = .status t.status.word :: items ∧
      (t.status.last ∈ ([0x01, 0x02, 0x03, 0x04] : List (BitVec 8)) → items = []) ∧
      (t.status.last ∉ ([0x01, 0x02, 0x03, 0x04] : List (BitVec 8)) →
        (∀ slot key nonce, i = .create slot key nonce → items = []) ∧ (∀ slot c, i = .seek slot c → items = []) ∧
        (∀ slot, i = .nextb slot → ∃ bs : List Byte, bs.length = 64 ∧ items = bs.map .byte) ∧
        (∀ slot, i = .nextw slot → ∃ ws : List Word, ws.length = 16 ∧ items = ws.map .word) ∧
        (∀ slot, i = .tell slot →
          ∃ w : Block, s.slots[slot.toNat]? = some (some w) ∧ items = [.word w[12], .word w[13]])))

/-- R24, the frame of every command: no command writes another slot than its own, nor the parameters, nor CMDBUF; a command that
ends with an error, and a TELL, writes STATUS.LAST alone; words other than the counter's are written by CREATE alone; only NEXTB
and NEXTW write `X`; only exhaustion writes STATUS.EXH, and CREATE, SEEK and TELL never do; no command but CREATE makes an invalid
slot valid, and none makes a valid slot invalid. -/
def Obligations.CommandsWriteOnlyWhatTheirRowNames : Prop :=
  ∀ (i : Instr) (s t : State), exec i s = .next t →
    (t.nctx = s.nctx ∧ t.counterAccess = s.counterAccess ∧ t.cmdbuf = s.cmdbuf ∧ t.port = s.port ∧ t.client = s.client) ∧
    (∀ k, k ≠ i.slot.toNat → t.slots[k]? = s.slots[k]?) ∧
    (t.status.last ≠ 0x05 → t.status.exh = s.status.exh ∧ t.draws = s.draws) ∧
    (t.status.last ≠ 0x00 → t.status.last ≠ 0x05 → t.slots = s.slots ∧ t.x = s.x) ∧
    ((∀ slot, i ≠ .nextb slot) → (∀ slot, i ≠ .nextw slot) → t.x = s.x) ∧
    ((∀ slot, i ≠ .nextb slot) → (∀ slot, i ≠ .nextw slot) → t.status.exh = s.status.exh) ∧
    (∀ slot, i = .tell slot → t.slots = s.slots) ∧
    (∀ k, s.valid k = true → t.valid k = true) ∧
    ((∀ slot key nonce, i ≠ .create slot key nonce) → s.slots[i.slot.toNat]? = some none →
      t.slots[i.slot.toNat]? = some none) ∧
    ((∀ slot key nonce, i ≠ .create slot key nonce) → ∀ w, s.slots[i.slot.toNat]? = some (some w) →
      ∃ w', t.slots[i.slot.toNat]? = some (some w') ∧ ∀ j : Fin 16, j ≠ 12 → j ≠ 13 → w'[j] = w[j])

/-- R29: every command writes STATUS.LAST with one of the six codes; STATUS.EXH changes only when a NEXTB or NEXTW finds the
counter at `2^64 - 1`, which sets it; a valid bit changes only when a CREATE succeeds, which sets it. -/
def Obligations.FlagsAreWrittenOnlyByTheirCommands : Prop :=
  ∀ (i : Instr) (s : State), ∃ t, exec i s = .next t ∧
    t.status.last.toNat ≤ 5 ∧
    (t.status.exh = true ↔ s.status.exh = true ∨
      (i = .nextb i.slot ∨ i = .nextw i.slot) ∧
        ∃ w, s.slots[i.slot.toNat]? = some (some w) ∧ (blockCounter w).toNat = 2 ^ 64 - 1) ∧
    ∀ k, t.valid k = true ↔ s.valid k = true ∨
      (k = i.slot.toNat ∧ k < s.nctx ∧
        ∃ key nonce, i = .create i.slot key nonce ∧ key.length = 32 ∧ nonce.length = 8)

/-- R229: with EXH set the engine goes on executing commands by their rules: every command completes, leaves EXH set, and does to
everything but EXH, and the EXH bit of the STATUS it sends, what it does with EXH clear. -/
def Obligations.ExhaustedEngineGoesOn : Prop :=
  (∀ (c : RawCommand) (s : State), ∃ t r,
    execCommand c { s with status := { s.status with exh := false } } = .next t ∧ t.out = s.out ++ [r] ∧
    execCommand c { s with status := { s.status with exh := true } } =
      .next { t with status := { t.status with exh := true }, out := s.out ++ [{ r with status := r.status ||| 0x100 }] }) ∧
  ∀ s t : State, step s = .next t → s.status.exh = true → t.status.exh = true ∨ ∃ es, s.port = .reset :: es

/-! ## Whole-machine results -/

/-- R156 with R33: over any sequence of commands with no CREATE and no SEEK on a valid slot, the slot's counter goes up by exactly
the number of NEXTB and NEXTW on it, as long as it does not run out, and its other words stay. -/
def Obligations.CounterCountsTheBlocksTaken : Prop :=
  ∀ (is : List Instr) (s : State) (slot : BitVec 8) (w : Block),
    s.slots[slot.toNat]? = some (some w) →
    (∀ key nonce, .create slot key nonce ∉ is) → (∀ c, .seek slot c ∉ is) →
    (blockCounter w).toNat + (is.count (.nextb slot) + is.count (.nextw slot)) < 2 ^ 64 →
    ∃ t w', runInstrs is s = .next t ∧ t.slots[slot.toNat]? = some (some w') ∧
      (blockCounter w').toNat = (blockCounter w).toNat + (is.count (.nextb slot) + is.count (.nextw slot)) ∧
      ∀ i : Fin 16, i ≠ 12 → i ≠ 13 → w'[i] = w[i]

/-- R195: two slots created with the same key and nonce and driven by the same sequence of NEXTB, NEXTW and SEEK return the same
blocks whichever form each command asks for, as long as no fault occurs. The two may be slots of one engine or of two with the same
COUNTER_ACCESS, and any commands on other slots, and TELLs, may come between: two slots of one engine driven in turn (P4) are two
runs that end in the same state, the later-created slot's starting at its CREATE. -/
def Obligations.EqualContextsGiveEqualBlocks : Prop :=
  ∀ (s₁ s₂ : State) (a b : BitVec 8) (key nonce : List Byte) (is₁ is₂ : List Instr),
    a.toNat < s₁.nctx → b.toNat < s₂.nctx → key.length = 32 → nonce.length = 8 → s₁.counterAccess = s₂.counterAccess →
    (∀ k n, .create a k n ∉ is₁) → (∀ k n, .create b k n ∉ is₂) →
    is₁.filterMap (drivesSlot a) = is₂.filterMap (drivesSlot b) →
    ∃ t₁ t₂ o₁ o₂ r₁ r₂,
      runInstrs (.create a key nonce :: is₁) s₁ = .next t₁ ∧ t₁.out = s₁.out ++ o₁ :: r₁ ∧ r₁.length = is₁.length ∧
      runInstrs (.create b key nonce :: is₂) s₂ = .next t₂ ∧ t₂.out = s₂.out ++ o₂ :: r₂ ∧ r₂.length = is₂.length ∧
      (t₁.status.exh = false → t₂.status.exh = false →
        t₁.slots[a.toNat]? = t₂.slots[b.toNat]? ∧ payloadsOf a is₁ r₁ = payloadsOf b is₂ r₂)

/-- The invariant of reachable states (R8, R27, R31, R33, R54) is kept by every step, from every state that has it. -/
def Obligations.EveryStepKeepsTheEngineWellFormed : Prop :=
  ∀ s t : State, EngineInv s → step s = .next t → EngineInv t

/-- The state after reset has the invariant, whatever the parameters in their range. -/
def Obligations.ResetStateIsWellFormed : Prop :=
  (∀ p : Params, p.valid = true → EngineInv (State.resetWith p)) ∧ EngineInv State.reset

/-- R31 under the invariant: when a command executes, CMDBUF held exactly its bytes and is empty after it. -/
def Obligations.ExecutionEmptiesTheCommandBuffer : Prop :=
  ∀ (s : State) (c : RawCommand) (len : Nat), EngineInv s → (∀ es, s.port ≠ .reset :: es) → decode s.cmdbuf = .command c len →
    len = s.cmdbuf.length ∧ ∃ t, step s = .next t ∧ t.cmdbuf = []

/-- R25: the working buffer is not observable: whatever `X` holds before a command, the command does the same to everything
but `X`. -/
def Obligations.WorkingBufferIsNeverObservable : Prop :=
  ∀ (i : Instr) (s : State) (x : Block), ∃ t x', exec i s = .next t ∧ exec i { s with x := x } = .next { t with x := x' }

/-- R236: there is one privilege level: which host sends a command changes nothing but which host its response goes to. -/
def Obligations.EveryHostMaySendEveryCommand : Prop :=
  ∀ (i : Instr) (s : State) (h : Nat), ∃ t r, exec i s = .next t ∧ t.out = s.out ++ [r] ∧
    exec i { s with client := h } = .next { t with client := h, out := s.out ++ [{ r with host := h }] }

/-- R72 and R24 as isolation: the only slot a command reads is the one SLOT names (R72) and it writes no other (R24), so what another
slot holds neither changes what a command does nor is changed by it. -/
def Obligations.CommandsCannotSeeOtherSlots : Prop :=
  ∀ (i : Instr) (s : State) (k : Nat) (v : Option Block), k ≠ i.slot.toNat →
    ∃ t, exec i s = .next t ∧ exec i { s with slots := s.slots.set k v } = .next { t with slots := t.slots.set k v }

/-- R57: CREATE, SEEK and TELL are idempotent: the same command again leaves the same state, but for the response sent. -/
def Obligations.RepeatingCreateSeekOrTellChangesNothing : Prop :=
  ∀ (i : Instr) (s : State), (∀ slot, i ≠ .nextb slot) → (∀ slot, i ≠ .nextw slot) →
    ∃ t u, exec i s = .next t ∧ exec i t = .next u ∧ u = { t with out := u.out }
end

