-- ==== Sys2Proof/Laws/Codec.lean ====
section
/-! SUPPORT. Laws of the little-endian codec and of serialization (spec/44_codec.md, spec/43_block_transform.md R154). -/

namespace Sys2Proof.Machine

@[simp] theorem leBytes_length (n v : Nat) : (leBytes n v).length = n := by
  induction n generalizing v with
  | zero => rfl
  | succ n ih => simp [leBytes, ih]

/-- Reading back the `n` low bytes of a value gives its remainder. -/
theorem leNat_leBytes (n v : Nat) : leNat (leBytes n v) = v % 256 ^ n := by
  induction n generalizing v with
  | zero => simp [leBytes, leNat, Nat.mod_one]
  | succ n ih =>
    show (BitVec.ofNat 8 v).toNat + 256 * leNat (leBytes n (v / 256)) = v % 256 ^ (n + 1)
    rw [ih, BitVec.toNat_ofNat, show 256 ^ (n + 1) = 256 * 256 ^ n by rw [Nat.pow_succ, Nat.mul_comm], Nat.mod_mul]

/-- Writing the value of a byte string gives the string. -/
theorem leBytes_leNat (bs : List Byte) : leBytes bs.length (leNat bs) = bs := by
  induction bs with
  | nil => rfl
  | cons b bs ih =>
    have hb := b.isLt
    simp only [List.length_cons, leBytes, leNat]
    have h1 : (b.toNat + 256 * leNat bs) / 256 = leNat bs := by omega
    rw [h1, ih]
    congr 1
    apply BitVec.eq_of_toNat_eq
    simp only [BitVec.toNat_ofNat]
    omega

theorem leNat_lt (bs : List Byte) : leNat bs < 256 ^ bs.length := by
  induction bs with
  | nil => simp [leNat]
  | cons b bs ih =>
    have hb := b.isLt
    simp only [List.length_cons, leNat, Nat.pow_succ]
    omega

/-- The fields of a command word are the bytes it was read from (R71). -/
theorem cwOp_unpack (b0 b1 b2 b3 : Byte) (r : List Byte) (h : 0 + 3 < (b0 :: b1 :: b2 :: b3 :: r).length) :
    cwOp (unpack (b0 :: b1 :: b2 :: b3 :: r) 0 h) = b0 := by
  apply BitVec.eq_of_getLsbD_eq
  intro i hi
  simp [cwOp, unpack, hi]
  grind

theorem cwSlot_unpack (b0 b1 b2 b3 : Byte) (r : List Byte) (h : 0 + 3 < (b0 :: b1 :: b2 :: b3 :: r).length) :
    cwSlot (unpack (b0 :: b1 :: b2 :: b3 :: r) 0 h) = b1 := by
  apply BitVec.eq_of_getLsbD_eq
  intro i hi
  simp [cwSlot, unpack, hi]
  grind

theorem cwKlen_unpack (b0 b1 b2 b3 : Byte) (r : List Byte) (h : 0 + 3 < (b0 :: b1 :: b2 :: b3 :: r).length) :
    cwKlen (unpack (b0 :: b1 :: b2 :: b3 :: r) 0 h) = b2 := by
  apply BitVec.eq_of_getLsbD_eq
  intro i hi
  simp [cwKlen, unpack, hi]
  grind

theorem cwNlen_unpack (b0 b1 b2 b3 : Byte) (r : List Byte) (h : 0 + 3 < (b0 :: b1 :: b2 :: b3 :: r).length) :
    cwNlen (unpack (b0 :: b1 :: b2 :: b3 :: r) 0 h) = b3 := by
  apply BitVec.eq_of_getLsbD_eq
  intro i hi
  simp [cwNlen, unpack, hi]
  grind

/-- Byte `k` of the word UNPACK reads at `off` is the byte of the string at `off + k` (R52, R181). -/
theorem unpack_byte (b : List Byte) (off : Nat) (h : off + 3 < b.length) (k : Nat) (hk : k < 4) :
    (unpack b off h).extractLsb' (8 * k) 8 = b[off + k]'(by omega) := by
  apply BitVec.eq_of_getLsbD_eq
  intro i hi
  interval_cases k <;> simp [unpack, hi] <;> grind

theorem leBytes_getElem? (n v k : Nat) (h : k < n) : (leBytes n v)[k]? = some (BitVec.ofNat 8 (v / 256 ^ k)) := by
  induction n generalizing v k with
  | zero => omega
  | succ n ih =>
    cases k with
    | zero => simp [leBytes]
    | succ k => rw [leBytes, List.getElem?_cons_succ, ih _ _ (by omega), Nat.div_div_eq_div_mul, Nat.pow_succ, Nat.mul_comm]

/-- MemRead at width 4 is UNPACK (R51). -/
theorem memRead_four (b : List Byte) (off : Nat) (h : off + 3 < b.length) : memRead b off 4 = (unpack b off h).toNat := by
  have e : (b.drop off).take 4 = leBytes 4 (unpack b off h).toNat := by
    apply List.ext_getElem?
    intro k
    by_cases hk : k < 4
    · rw [leBytes_getElem? _ _ _ hk, List.getElem?_take_of_lt hk, List.getElem?_drop, List.getElem?_eq_getElem (by omega),
        ← unpack_byte b off h k hk]
      congr 1
      apply BitVec.eq_of_toNat_eq
      simp only [BitVec.extractLsb'_toNat, BitVec.toNat_ofNat, Nat.shiftRight_eq_div_pow, Nat.pow_mul]
    · rw [List.getElem?_eq_none (by simp; omega), List.getElem?_eq_none (by simp; omega)]
  rw [memRead, e, leNat_leBytes, Nat.mod_eq_of_lt]
  exact (unpack b off h).isLt

/-- MemRead of one byte more, from the front. -/
theorem memRead_succ (b : List Byte) (off n : Nat) (h : off < b.length) :
    memRead b off (n + 1) = b[off].toNat + 256 * memRead b (off + 1) n := by
  unfold memRead
  rw [List.drop_eq_getElem_cons h, List.take_succ_cons, leNat]

@[simp] theorem memWrite_length (b : List Byte) (off n v : Nat) : (memWrite b off n v).length = b.length := by
  induction n with
  | zero => rfl
  | succ n ih => simp [memWrite, ih]

@[simp] theorem pack_length (v : Word) (b : List Byte) (off : Nat) : (pack v b off).length = b.length := by
  simp [pack]

/-- What stands at each offset after PACK (R182): the four bytes of the word, and every other byte as before. -/
theorem pack_getElem? (v : Word) (b : List Byte) (off j : Nat) (h : off + 3 < b.length) :
    (pack v b off)[j]? = if off ≤ j ∧ j < off + 4 then some (v.extractLsb' (8 * (j - off)) 8) else b[j]? := by
  by_cases hj : off ≤ j ∧ j < off + 4
  · rw [if_pos hj]
    have : j = off ∨ j = off + 1 ∨ j = off + 2 ∨ j = off + 3 := by omega
    obtain rfl | rfl | rfl | rfl := this <;>
      simp only [pack, List.getElem?_set, List.length_set] <;> grind
  · rw [if_neg hj]
    simp only [pack, List.getElem?_set, List.length_set]
    grind

@[simp] theorem serialize_length (out : Block) : (serialize out).length = 64 := by
  simp [serialize, wordIndices]

/-- Byte `4i + k` of a serialized block is byte `k` of word `i` (R154). -/
theorem serialize_getElem? (out : Block) (i : Fin 16) (k : Fin 4) :
    (serialize out)[4 * i.val + k.val]? = some (out[i].extractLsb' (8 * k.val) 8) := by
  have hi := i.isLt
  have hk := k.isLt
  simp only [serialize, wordIndices, List.foldl_cons, List.foldl_nil]
  repeat' rw [pack_getElem? _ _ _ _ (by simp)]
  fin_cases i <;> fin_cases k <;> simp

end Sys2Proof.Machine
end

