-- ==== Sys2Proof/Laws/Decode.lean ====
section
/-! SUPPORT. Laws of the decoder and the encoder (spec/30_encoding.md R71 to R77). -/

namespace Sys2Proof

open Sys2Proof.Machine

/-- `len(CW)` in terms of the fields (R74). -/
def lengthOfFields (op klen nlen : Byte) : Nat :=
  if op = 0x01 then 4 + klen.toNat + nlen.toNat else if op = 0x04 then 12 else 4

theorem four_le_lengthOfFields (op klen nlen : Byte) : 4 ≤ lengthOfFields op klen nlen := by
  unfold lengthOfFields
  split
  · omega
  · split <;> omega

/-- Decoding a string of four bytes or more: its bytes are the fields (R71), and its length is decided by them (R74, R77). -/
theorem decode_cons (b0 b1 b2 b3 : Byte) (r : List Byte) :
    decode (b0 :: b1 :: b2 :: b3 :: r) =
      if r.length + 4 < lengthOfFields b0 b2 b3 then .needMore
      else .command
        { op := b0, slot := b1, klen := b2, nlen := b3, operand := r.take (lengthOfFields b0 b2 b3 - 4) }
        (lengthOfFields b0 b2 b3) := by
  have h4 := four_le_lengthOfFields b0 b2 b3
  have hl : ∀ h, commandLength (unpack (b0 :: b1 :: b2 :: b3 :: r) 0 h) = lengthOfFields b0 b2 b3 := by
    intro h
    simp only [commandLength, cwOp_unpack, cwKlen_unpack, cwNlen_unpack, lengthOfFields]
  unfold decode
  rw [dif_neg (by simp)]
  simp only [hl, cwOp_unpack, cwSlot_unpack, cwKlen_unpack, cwNlen_unpack, List.length_cons]
  split
  · rfl
  · congr 2
    obtain ⟨k, hk⟩ : ∃ k, lengthOfFields b0 b2 b3 = k + 4 := ⟨_, (Nat.sub_add_cancel h4).symm⟩
    simp [hk]

/-- Fewer than four bytes are no command yet (R77). -/
theorem decode_short (b : List Byte) (h : b.length < 4) : decode b = .needMore := by
  unfold decode
  rw [dif_pos h]

/-- A byte string is short or starts with four bytes. -/
theorem short_or_cons (b : List Byte) :
    b.length < 4 ∨ ∃ b0 b1 b2 b3 r, b = b0 :: b1 :: b2 :: b3 :: r := by
  match b with
  | [] => simp
  | [_] => simp
  | [_, _] => simp
  | [_, _, _] => simp
  | b0 :: b1 :: b2 :: b3 :: r => exact .inr ⟨b0, b1, b2, b3, r, rfl⟩

/-- Everything `decode` can answer. -/
theorem decode_eq_command_iff (b : List Byte) (c : RawCommand) (len : Nat) :
    decode b = .command c len ↔
      ∃ r, b = c.op :: c.slot :: c.klen :: c.nlen :: r ∧ len = lengthOfFields c.op c.klen c.nlen ∧
        len ≤ r.length + 4 ∧ c.operand = r.take (len - 4) := by
  obtain h | ⟨b0, b1, b2, b3, r, rfl⟩ := short_or_cons b
  · rw [decode_short b h]
    constructor
    · intro h'; cases h'
    · rintro ⟨r, rfl, _⟩; simp only [List.length_cons] at h; omega
  · rw [decode_cons]
    split
    · constructor
      · intro h'; cases h'
      · rintro ⟨r', hr, rfl, hl, _⟩
        injection hr with h0 hr; injection hr with h1 hr; injection hr with h2 hr; injection hr with h3 hr
        subst h0 h1 h2 h3 hr
        omega
    · constructor
      · intro h'
        injection h' with hc hl
        subst hc hl
        exact ⟨r, rfl, rfl, by omega, rfl⟩
      · rintro ⟨r', hr, rfl, hl, ho⟩
        injection hr with h0 hr; injection hr with h1 hr; injection hr with h2 hr; injection hr with h3 hr
        cases c
        simp_all

/-- A decoded command's length is at least that of its command word and at most that of the bytes received. -/
theorem decode_len (b : List Byte) (c : RawCommand) (len : Nat) (h : decode b = .command c len) :
    4 ≤ len ∧ len ≤ b.length := by
  obtain ⟨r, rfl, rfl, hl, _⟩ := (decode_eq_command_iff b c len).mp h
  exact ⟨four_le_lengthOfFields _ _ _, by simpa using hl⟩

/-- More bytes after a whole command change nothing of what it decodes to (R74). -/
theorem decode_append (b rest : List Byte) (c : RawCommand) (len : Nat) (h : decode b = .command c len) :
    decode (b ++ rest) = .command c len := by
  obtain ⟨r, rfl, hlen, hl, ho⟩ := (decode_eq_command_iff b c len).mp h
  refine (decode_eq_command_iff _ _ _).mpr ⟨r ++ rest, rfl, hlen, by simp; omega, ?_⟩
  rw [ho, List.take_append_of_le_length (by omega)]

/-- The operand string of a decoded CREATE is KLEN key bytes and NLEN nonce bytes (R73), and that of a decoded SEEK eight bytes
(R75). -/
theorem decode_operand_length (b : List Byte) (c : RawCommand) (len : Nat) (h : decode b = .command c len) :
    c.operand.length = len - 4 := by
  obtain ⟨r, rfl, rfl, hl, ho⟩ := (decode_eq_command_iff b c len).mp h
  rw [ho, List.length_take]
  omega

/-- Every encoded command starts with the four bytes of its command word. -/
theorem encode_length (i : Instr) : 4 ≤ (encode i).length := by
  cases i <;> simp [encode]

end Sys2Proof
end

