-- ==== Sys2Proof/Laws/State.lean ====
section
/-! SUPPORT. What each field of the state is after each update: one lemma per field per update. -/

namespace Sys2Proof.Machine

section
variable (code : ResultCode) (s : State)

@[simp] theorem State.setLast_slots : (State.setLast code s).slots = s.slots := rfl
@[simp] theorem State.setLast_status : (State.setLast code s).status = { s.status with last := code.code } := rfl
@[simp] theorem State.setLast_x : (State.setLast code s).x = s.x := rfl
@[simp] theorem State.setLast_cmdbuf : (State.setLast code s).cmdbuf = s.cmdbuf := rfl
@[simp] theorem State.setLast_counterAccess : (State.setLast code s).counterAccess = s.counterAccess := rfl
@[simp] theorem State.setLast_port : (State.setLast code s).port = s.port := rfl
@[simp] theorem State.setLast_client : (State.setLast code s).client = s.client := rfl
@[simp] theorem State.setLast_out : (State.setLast code s).out = s.out := rfl
@[simp] theorem State.setLast_draws : (State.setLast code s).draws = s.draws := rfl
@[simp] theorem State.setLast_nctx : (State.setLast code s).nctx = s.nctx := rfl

end

section
variable (s : State)

@[simp] theorem State.setExh_slots : (State.setExh s).slots = s.slots := rfl
@[simp] theorem State.setExh_status : (State.setExh s).status = { s.status with exh := true } := rfl
@[simp] theorem State.setExh_x : (State.setExh s).x = s.x := rfl
@[simp] theorem State.setExh_cmdbuf : (State.setExh s).cmdbuf = s.cmdbuf := rfl
@[simp] theorem State.setExh_counterAccess : (State.setExh s).counterAccess = s.counterAccess := rfl
@[simp] theorem State.setExh_port : (State.setExh s).port = s.port := rfl
@[simp] theorem State.setExh_client : (State.setExh s).client = s.client := rfl
@[simp] theorem State.setExh_out : (State.setExh s).out = s.out := rfl
@[simp] theorem State.setExh_draws : (State.setExh s).draws = s.draws := rfl
@[simp] theorem State.setExh_nctx : (State.setExh s).nctx = s.nctx := rfl

end

section
variable (slot : BitVec 8) (w : Block) (s : State)

@[simp] theorem State.setContext_slots : (State.setContext slot w s).slots = s.slots.set slot.toNat (some w) := rfl
@[simp] theorem State.setContext_status : (State.setContext slot w s).status = s.status := rfl
@[simp] theorem State.setContext_x : (State.setContext slot w s).x = s.x := rfl
@[simp] theorem State.setContext_cmdbuf : (State.setContext slot w s).cmdbuf = s.cmdbuf := rfl
@[simp] theorem State.setContext_counterAccess : (State.setContext slot w s).counterAccess = s.counterAccess := rfl
@[simp] theorem State.setContext_port : (State.setContext slot w s).port = s.port := rfl
@[simp] theorem State.setContext_client : (State.setContext slot w s).client = s.client := rfl
@[simp] theorem State.setContext_out : (State.setContext slot w s).out = s.out := rfl
@[simp] theorem State.setContext_draws : (State.setContext slot w s).draws = s.draws := rfl
@[simp] theorem State.setContext_nctx : (State.setContext slot w s).nctx = s.nctx := List.length_set ..

end

section
variable (p : Payload) (s : State)

@[simp] theorem State.respond_slots : (State.respond p s).slots = s.slots := rfl
@[simp] theorem State.respond_status : (State.respond p s).status = s.status := rfl
@[simp] theorem State.respond_x : (State.respond p s).x = s.x := rfl
@[simp] theorem State.respond_cmdbuf : (State.respond p s).cmdbuf = s.cmdbuf := rfl
@[simp] theorem State.respond_counterAccess : (State.respond p s).counterAccess = s.counterAccess := rfl
@[simp] theorem State.respond_port : (State.respond p s).port = s.port := rfl
@[simp] theorem State.respond_client : (State.respond p s).client = s.client := rfl
@[simp] theorem State.respond_out : (State.respond p s).out = s.out ++ [{ host := s.client, status := s.status.word, payload := p }] := rfl
@[simp] theorem State.respond_draws : (State.respond p s).draws = s.draws := rfl
@[simp] theorem State.respond_nctx : (State.respond p s).nctx = s.nctx := rfl

end

section
variable (host : Nat) (b : Byte) (s : State)

@[simp] theorem State.acceptByte_slots : (State.acceptByte host b s).slots = s.slots := rfl
@[simp] theorem State.acceptByte_status : (State.acceptByte host b s).status = s.status := rfl
@[simp] theorem State.acceptByte_x : (State.acceptByte host b s).x = s.x := rfl
@[simp] theorem State.acceptByte_cmdbuf : (State.acceptByte host b s).cmdbuf = s.cmdbuf ++ [b] := rfl
@[simp] theorem State.acceptByte_counterAccess : (State.acceptByte host b s).counterAccess = s.counterAccess := rfl
@[simp] theorem State.acceptByte_port : (State.acceptByte host b s).port = s.port := rfl
@[simp] theorem State.acceptByte_client : (State.acceptByte host b s).client = host := rfl
@[simp] theorem State.acceptByte_out : (State.acceptByte host b s).out = s.out := rfl
@[simp] theorem State.acceptByte_draws : (State.acceptByte host b s).draws = s.draws := rfl
@[simp] theorem State.acceptByte_nctx : (State.acceptByte host b s).nctx = s.nctx := rfl

end

section
variable (s : State)

@[simp] theorem State.resetEvent_slots : (State.resetEvent s).slots = List.replicate s.nctx none := rfl
@[simp] theorem State.resetEvent_status : (State.resetEvent s).status = { last := 0, exh := false } := rfl
@[simp] theorem State.resetEvent_x : (State.resetEvent s).x = Vector.replicate 16 0 := rfl
@[simp] theorem State.resetEvent_cmdbuf : (State.resetEvent s).cmdbuf = [] := rfl
@[simp] theorem State.resetEvent_counterAccess : (State.resetEvent s).counterAccess = s.counterAccess := rfl
@[simp] theorem State.resetEvent_port : (State.resetEvent s).port = s.port := rfl
@[simp] theorem State.resetEvent_client : (State.resetEvent s).client = s.client := rfl
@[simp] theorem State.resetEvent_out : (State.resetEvent s).out = s.out := rfl
@[simp] theorem State.resetEvent_draws : (State.resetEvent s).draws = s.draws := rfl
@[simp] theorem State.resetEvent_nctx : (State.resetEvent s).nctx = s.nctx := List.length_replicate ..

end

section
variable (bytes : List Byte) (s : State)

@[simp] theorem State.loadCommand_slots : (State.loadCommand bytes s).slots = s.slots := rfl
@[simp] theorem State.loadCommand_status : (State.loadCommand bytes s).status = s.status := rfl
@[simp] theorem State.loadCommand_x : (State.loadCommand bytes s).x = s.x := rfl
@[simp] theorem State.loadCommand_cmdbuf : (State.loadCommand bytes s).cmdbuf = bytes := rfl
@[simp] theorem State.loadCommand_counterAccess : (State.loadCommand bytes s).counterAccess = s.counterAccess := rfl
@[simp] theorem State.loadCommand_port : (State.loadCommand bytes s).port = s.port.dropWhile PortEvent.isReset := rfl
@[simp] theorem State.loadCommand_client : (State.loadCommand bytes s).client = s.client := rfl
@[simp] theorem State.loadCommand_out : (State.loadCommand bytes s).out = s.out := rfl
@[simp] theorem State.loadCommand_draws : (State.loadCommand bytes s).draws = s.draws := rfl
@[simp] theorem State.loadCommand_nctx : (State.loadCommand bytes s).nctx = s.nctx := rfl

end

section
variable (p : Params)

@[simp] theorem State.resetWith_slots : (State.resetWith p).slots = List.replicate p.nctx none := rfl
@[simp] theorem State.resetWith_status : (State.resetWith p).status = { last := 0, exh := false } := rfl
@[simp] theorem State.resetWith_cmdbuf : (State.resetWith p).cmdbuf = [] := rfl
@[simp] theorem State.resetWith_counterAccess : (State.resetWith p).counterAccess = p.counterAccess := rfl
@[simp] theorem State.resetWith_port : (State.resetWith p).port = [] := rfl
@[simp] theorem State.resetWith_out : (State.resetWith p).out = [] := rfl
@[simp] theorem State.resetWith_nctx : (State.resetWith p).nctx = p.nctx := List.length_replicate ..

end

/-- The three outcomes of reaching for a slot's words (R231), in terms of the slot list. -/
theorem State.context_eq_ok_iff (s : State) (slot : BitVec 8) (w : Block) :
    s.context slot = .ok w ↔ s.slots[slot.toNat]? = some (some w) := by
  unfold State.context
  split <;> simp_all

theorem State.context_eq_slotOutOfRange (s : State) (slot : BitVec 8) (h : s.nctx ≤ slot.toNat) :
    s.context slot = .error .slotOutOfRange := by
  have : s.slots[slot.toNat]? = none := List.getElem?_eq_none h
  simp [State.context, this]

theorem State.context_eq_noState (s : State) (slot : BitVec 8) (h : s.slots[slot.toNat]? = some none) :
    s.context slot = .error .noState := by
  simp [State.context, h]

/-- Every slot is out of range, invalid, or valid with words. -/
theorem State.slot_cases (s : State) (slot : BitVec 8) :
    s.nctx ≤ slot.toNat ∨ s.slots[slot.toNat]? = some none ∨ ∃ w, s.slots[slot.toNat]? = some (some w) := by
  by_cases h : s.nctx ≤ slot.toNat
  · exact .inl h
  · have hlt : slot.toNat < s.slots.length := by simpa [State.nctx] using h
    cases hw : s.slots[slot.toNat] with
    | none => exact .inr (.inl (by rw [List.getElem?_eq_getElem hlt, hw]))
    | some w => exact .inr (.inr ⟨w, by rw [List.getElem?_eq_getElem hlt, hw]⟩)

/-- A slot with words is in range. -/
theorem State.lt_nctx_of_slot (s : State) (k : Nat) (o : Option Block) (h : s.slots[k]? = some o) : k < s.nctx :=
  (List.getElem?_eq_some_iff.mp h).1

end Sys2Proof.Machine
end

