-- ==== Sys2Proof/Laws/Ops.lean ====
section
/-! SUPPORT. What each shared operation and each meaning can answer, said once: later proofs cite these and unfold nothing. -/

namespace Sys2Proof.Machine

section
variable (s : State) (slot : BitVec 8)

/-- A block command whose slot is out of range. -/
theorem runBlock_outOfRange (form : Block → Payload) (drawn : Nat → Payload) (h : s.nctx ≤ slot.toNat) :
    runBlock form drawn slot s = raiseError .slotOutOfRange s := by
  simp [runBlock, s.context_eq_slotOutOfRange slot h]

/-- A block command whose slot is invalid. -/
theorem runBlock_noState (form : Block → Payload) (drawn : Nat → Payload) (h : s.slots[slot.toNat]? = some none) :
    runBlock form drawn slot s = raiseError .noState s := by
  simp [runBlock, s.context_eq_noState slot h]

/-- A block command below the last counter value. -/
theorem runBlock_ok (form : Block → Payload) (drawn : Nat → Payload) (w w' : Block)
    (h : s.slots[slot.toNat]? = some (some w)) (hi : incr w = some w') :
    runBlock form drawn slot s =
      complete (form (blockWords w)) (State.setContext slot w' { s with x := blockWords w }) := by
  simp [runBlock, (s.context_eq_ok_iff slot w).mpr h, hi]

/-- A block command at the last counter value. -/
theorem runBlock_exhausted (form : Block → Payload) (drawn : Nat → Payload) (w : Block)
    (h : s.slots[slot.toNat]? = some (some w)) (hi : incr w = none) :
    runBlock form drawn slot s = raiseCounterExhausted slot w (drawn s.draws) { s with x := blockWords w } := by
  simp [runBlock, (s.context_eq_ok_iff slot w).mpr h, hi]

/-- Everything a block command can do. -/
theorem runBlock_cases (form : Block → Payload) (drawn : Nat → Payload) :
    (s.nctx ≤ slot.toNat ∧ runBlock form drawn slot s = raiseError .slotOutOfRange s) ∨
    (s.slots[slot.toNat]? = some none ∧ runBlock form drawn slot s = raiseError .noState s) ∨
    (∃ w w', s.slots[slot.toNat]? = some (some w) ∧ incr w = some w' ∧
      runBlock form drawn slot s =
        complete (form (blockWords w)) (State.setContext slot w' { s with x := blockWords w })) ∨
    (∃ w, s.slots[slot.toNat]? = some (some w) ∧ incr w = none ∧
      runBlock form drawn slot s = raiseCounterExhausted slot w (drawn s.draws) { s with x := blockWords w }) := by
  obtain h | h | ⟨w, h⟩ := s.slot_cases slot
  · exact .inl ⟨h, runBlock_outOfRange s slot form drawn h⟩
  · exact .inr (.inl ⟨h, runBlock_noState s slot form drawn h⟩)
  · cases hi : incr w with
    | none => exact .inr (.inr (.inr ⟨w, h, hi, runBlock_exhausted s slot form drawn w h hi⟩))
    | some w' => exact .inr (.inr (.inl ⟨w, w', h, hi, runBlock_ok s slot form drawn w w' h hi⟩))

/-- Everything CREATE can do. -/
theorem execCreate_cases (key nonce : List Byte) :
    (s.nctx ≤ slot.toNat ∧ execCreate slot key nonce s = raiseError .slotOutOfRange s) ∨
    (slot.toNat < s.nctx ∧ (key.length ≠ 32 ∨ nonce.length ≠ 8) ∧
      execCreate slot key nonce s = raiseError .invalidInputLength s) ∨
    (slot.toNat < s.nctx ∧ key.length = 32 ∧ nonce.length = 8 ∧
      execCreate slot key nonce s = complete .empty (s.setContext slot (createWords (key ++ nonce)))) := by
  unfold execCreate
  split
  · exact .inl ⟨‹_›, rfl⟩
  · split
    · exact .inr (.inl ⟨by omega, ‹_›, rfl⟩)
    · exact .inr (.inr ⟨by omega, by omega, by omega, rfl⟩)

/-- Everything SEEK can do. -/
theorem execSeek_cases (c : DWord) :
    (s.counterAccess = false ∧ execSeek slot c s = raiseError .illegalCommand s) ∨
    (s.counterAccess = true ∧ s.nctx ≤ slot.toNat ∧ execSeek slot c s = raiseError .slotOutOfRange s) ∨
    (s.counterAccess = true ∧ s.slots[slot.toNat]? = some none ∧ execSeek slot c s = raiseError .noState s) ∨
    (∃ w, s.counterAccess = true ∧ s.slots[slot.toNat]? = some (some w) ∧
      execSeek slot c s = complete .empty (s.setContext slot (setCounter w c))) := by
  unfold execSeek
  split
  · exact .inl ⟨‹_›, rfl⟩
  · have ha : s.counterAccess = true := by simpa using ‹¬s.counterAccess = false›
    obtain h | h | ⟨w, h⟩ := s.slot_cases slot
    · exact .inr (.inl ⟨ha, h, by simp [s.context_eq_slotOutOfRange slot h]⟩)
    · exact .inr (.inr (.inl ⟨ha, h, by simp [s.context_eq_noState slot h]⟩))
    · exact .inr (.inr (.inr ⟨w, ha, h, by simp [(s.context_eq_ok_iff slot w).mpr h]⟩))

/-- Everything TELL can do. -/
theorem execTell_cases :
    (s.counterAccess = false ∧ execTell slot s = raiseError .illegalCommand s) ∨
    (s.counterAccess = true ∧ s.nctx ≤ slot.toNat ∧ execTell slot s = raiseError .slotOutOfRange s) ∨
    (s.counterAccess = true ∧ s.slots[slot.toNat]? = some none ∧ execTell slot s = raiseError .noState s) ∨
    (∃ w, s.counterAccess = true ∧ s.slots[slot.toNat]? = some (some w) ∧
      execTell slot s = complete (.words [w[12], w[13]]) s) := by
  unfold execTell
  split
  · exact .inl ⟨‹_›, rfl⟩
  · have ha : s.counterAccess = true := by simpa using ‹¬s.counterAccess = false›
    obtain h | h | ⟨w, h⟩ := s.slot_cases slot
    · exact .inr (.inl ⟨ha, h, by simp [s.context_eq_slotOutOfRange slot h]⟩)
    · exact .inr (.inr (.inl ⟨ha, h, by simp [s.context_eq_noState slot h]⟩))
    · exact .inr (.inr (.inr ⟨w, ha, h, by simp [(s.context_eq_ok_iff slot w).mpr h]⟩))

/-- What a meaning can end in: an error, which writes LAST alone; TELL's completion, which writes no slot; the completion of a
command that writes its slot; or the exhaustion fault. -/
inductive Ending (i : Instr) (s : State) : Result → Prop where
  | error (e : ResultCode) (h : e ≠ .ok ∧ e ≠ .counterExhausted) : Ending i s (raiseError e s)
  | created (key nonce : List Byte) (hi : i = .create i.slot key nonce) (hs : i.slot.toNat < s.nctx)
      (hk : key.length = 32) (hn : nonce.length = 8) :
      Ending i s (complete .empty (s.setContext i.slot (createWords (key ++ nonce))))
  | told (w : Block) (hi : i = .tell i.slot) (h : s.slots[i.slot.toNat]? = some (some w)) :
      Ending i s (complete (.words [w[12], w[13]]) s)
  | sought (w : Block) (c : DWord) (hi : i = .seek i.slot c) (h : s.slots[i.slot.toNat]? = some (some w)) :
      Ending i s (complete .empty (s.setContext i.slot (setCounter w c)))
  | advanced (w w' : Block) (p : Payload)
      (hi : (i = .nextb i.slot ∧ p = .bytes (serialize (blockWords w))) ∨
        (i = .nextw i.slot ∧ p = .words (blockWords w).toList))
      (h : s.slots[i.slot.toNat]? = some (some w)) (hw : incr w = some w') :
      Ending i s (complete p (State.setContext i.slot w' { s with x := blockWords w }))
  | exhausted (w : Block) (p : Payload)
      (hi : (i = .nextb i.slot ∧ p = drawBytes s.draws) ∨ (i = .nextw i.slot ∧ p = drawWords s.draws))
      (h : s.slots[i.slot.toNat]? = some (some w)) (hw : incr w = none) :
      Ending i s (raiseCounterExhausted i.slot w p { s with x := blockWords w })

end

/-- The inversion lemma of `exec`: every instruction, on every state, ends in one of the ways of `Ending`. -/
theorem exec_ending (i : Instr) (s : State) : Ending i s (exec i s) := by
  cases i with
  | create slot key nonce =>
    show Ending _ s (execCreate slot key nonce s)
    obtain ⟨_, h⟩ | ⟨_, _, h⟩ | ⟨hs, hk, hn, h⟩ := execCreate_cases s slot key nonce <;> rw [h]
    · exact .error _ (by simp)
    · exact .error _ (by simp)
    · exact .created key nonce rfl hs hk hn
  | nextb slot =>
    show Ending _ s (execNextb slot s)
    unfold execNextb
    obtain ⟨_, h⟩ | ⟨_, h⟩ | ⟨w, w', hs, hw, h⟩ | ⟨w, hs, hw, h⟩ := runBlock_cases s slot _ drawBytes <;> rw [h]
    · exact .error _ (by simp)
    · exact .error _ (by simp)
    · exact .advanced w w' _ (.inl ⟨rfl, rfl⟩) hs hw
    · exact .exhausted w _ (.inl ⟨rfl, rfl⟩) hs hw
  | nextw slot =>
    show Ending _ s (execNextw slot s)
    unfold execNextw
    obtain ⟨_, h⟩ | ⟨_, h⟩ | ⟨w, w', hs, hw, h⟩ | ⟨w, hs, hw, h⟩ := runBlock_cases s slot _ drawWords <;> rw [h]
    · exact .error _ (by simp)
    · exact .error _ (by simp)
    · exact .advanced w w' _ (.inr ⟨rfl, rfl⟩) hs hw
    · exact .exhausted w _ (.inr ⟨rfl, rfl⟩) hs hw
  | seek slot c =>
    show Ending _ s (execSeek slot c s)
    obtain ⟨_, h⟩ | ⟨_, _, h⟩ | ⟨_, _, h⟩ | ⟨w, _, hs, h⟩ := execSeek_cases s slot c <;> rw [h]
    · exact .error _ (by simp)
    · exact .error _ (by simp)
    · exact .error _ (by simp)
    · exact .sought w c rfl hs
  | tell slot =>
    show Ending _ s (execTell slot s)
    obtain ⟨_, h⟩ | ⟨_, _, h⟩ | ⟨_, _, h⟩ | ⟨w, _, hs, h⟩ := execTell_cases s slot <;> rw [h]
    · exact .error _ (by simp)
    · exact .error _ (by simp)
    · exact .error _ (by simp)
    · exact .told w rfl hs

/-- What a whole command can end in: its instruction's ending, or IllegalCommand. -/
theorem execCommand_cases (c : RawCommand) (s : State) :
    (∃ i, classify c = .ok i ∧ execCommand c s = exec i s) ∨
    (∃ e, classify c = .error e ∧ execCommand c s = raiseError .illegalCommand s) := by
  unfold execCommand
  cases h : classify c with
  | ok i => exact .inl ⟨i, rfl, rfl⟩
  | error e => exact .inr ⟨e, rfl, rfl⟩

/-- Everything a step can do: a reset, a command, or an event at the port while CMDBUF holds no whole command. -/
theorem machineStep_cases (s : State) :
    (∃ es, s.port = .reset :: es ∧ machineStep s = .next (State.resetEvent { s with port := es })) ∨
    ((∀ es, s.port ≠ .reset :: es) ∧ ∃ c len, decode s.cmdbuf = .command c len ∧
      machineStep s = execCommand c { s with cmdbuf := s.cmdbuf.drop len }) ∨
    ((∀ es, s.port ≠ .reset :: es) ∧ decode s.cmdbuf = .needMore ∧
      ((s.port = [] ∧ machineStep s = .fault .awaitingBytes) ∨
        (∃ h b es, s.port = .byte h b :: es ∧ machineStep s = .next (State.acceptByte h b { s with port := es })) ∨
        ∃ es, s.port = .idle :: es ∧ machineStep s = .next { s with port := es })) := by
  cases hp : s.port with
  | nil =>
    cases hd : decode s.cmdbuf with
    | needMore => simp [machineStep, engineTurn, awaitBytes, hp, hd]
    | command c len => simp [machineStep, engineTurn, hp, hd]
  | cons e es =>
    cases e with
    | reset => simp [machineStep, hp]
    | byte h b =>
      cases hd : decode s.cmdbuf with
      | needMore => simp [machineStep, engineTurn, awaitBytes, hp, hd]
      | command c len => simp [machineStep, engineTurn, hp, hd]
    | idle =>
      cases hd : decode s.cmdbuf with
      | needMore => simp [machineStep, engineTurn, awaitBytes, hp, hd]
      | command c len => simp [machineStep, engineTurn, hp, hd]

end Sys2Proof.Machine
end

