-- ==== Sys2Proof/Laws/Meanings.lean ====
section
/-! SUPPORT. Every ending of a command as one explicit next state, and the fields of that state. Later proofs rewrite with these and
never compute a block. -/

namespace Sys2Proof.Machine

section
variable (s : State) (last : BitVec 8) (p : Payload)

@[simp] theorem State.answered_slots : (s.answered last p).slots = s.slots := rfl
@[simp] theorem State.answered_x : (s.answered last p).x = s.x := rfl
@[simp] theorem State.answered_cmdbuf : (s.answered last p).cmdbuf = s.cmdbuf := rfl
@[simp] theorem State.answered_counterAccess : (s.answered last p).counterAccess = s.counterAccess := rfl
@[simp] theorem State.answered_port : (s.answered last p).port = s.port := rfl
@[simp] theorem State.answered_client : (s.answered last p).client = s.client := rfl
@[simp] theorem State.answered_draws : (s.answered last p).draws = s.draws := rfl
@[simp] theorem State.answered_nctx : (s.answered last p).nctx = s.nctx := rfl
@[simp] theorem State.answered_status : (s.answered last p).status = { s.status with last := last } := rfl
@[simp] theorem State.answered_out : (s.answered last p).out =
    s.out ++ [{ host := s.client, status := Status.word { s.status with last := last }, payload := p }] := rfl

end

/-- STATUS after the exhaustion fault (R228, V35). -/
theorem status_word_exhausted : Status.word { last := 0x05, exh := true } = 0x00000105 := by decide

/-- STATUS after reset (R250). -/
theorem status_word_reset : Status.word { last := 0, exh := false } = 0 := by decide

/-- An error writes LAST and answers with STATUS alone (R226). -/
theorem raiseError_eq (e : ResultCode) (s : State) : raiseError e s = .next (s.answered e.code .empty) := rfl

/-- Normal completion writes LAST 0x00 and answers with the payload (R54). -/
theorem complete_eq (p : Payload) (s : State) : complete p s = .next (s.answered 0x00 p) := rfl

/-- The exhaustion fault as one next state (R228). -/
theorem raiseCounterExhausted_eq (slot : BitVec 8) (w : Block) (p : Payload) (s : State) :
    raiseCounterExhausted slot w p s =
      .next { s with
        slots := s.slots.set slot.toNat (some (drawCounter w s.draws)), status := { last := 0x05, exh := true },
        draws := s.draws + 66, out := s.out ++ [{ host := s.client, status := 0x00000105, payload := p }] } := by
  rw [← status_word_exhausted]
  rfl

section
variable (s : State) (slot : BitVec 8) (w w' : Block) (h : s.slots[slot.toNat]? = some (some w))
include h

/-- NEXTB below the last counter value. -/
theorem execNextb_ok (hi : incr w = some w') :
    execNextb slot s = .next (State.answered { s with x := blockWords w, slots := s.slots.set slot.toNat (some w') } 0x00
      (.bytes (serialize (blockWords w)))) := by
  unfold execNextb
  rw [runBlock_ok s slot _ _ w w' h hi, complete_eq]
  generalize blockWords w = z
  rfl

/-- NEXTW below the last counter value. -/
theorem execNextw_ok (hi : incr w = some w') :
    execNextw slot s = .next (State.answered { s with x := blockWords w, slots := s.slots.set slot.toNat (some w') } 0x00
      (.words (blockWords w).toList)) := by
  unfold execNextw
  rw [runBlock_ok s slot _ _ w w' h hi, complete_eq]
  generalize blockWords w = z
  rfl

end

/-- The fields of an `Ending` (Laws/Ops.lean) as one explicit next state each: what `exec` answers, without a block computed. -/
theorem exec_next (i : Instr) (s : State) :
    (∃ e : ResultCode, e ≠ .ok ∧ e ≠ .counterExhausted ∧ exec i s = .next (s.answered e.code .empty)) ∨
    (∃ key nonce, i = .create i.slot key nonce ∧ i.slot.toNat < s.nctx ∧ key.length = 32 ∧ nonce.length = 8 ∧
      exec i s = .next (State.answered
        { s with slots := s.slots.set i.slot.toNat (some (createWords (key ++ nonce))) } 0x00 .empty)) ∨
    (∃ w, i = .tell i.slot ∧ s.slots[i.slot.toNat]? = some (some w) ∧
      exec i s = .next (s.answered 0x00 (.words [w[12], w[13]]))) ∨
    (∃ w c, i = .seek i.slot c ∧ s.slots[i.slot.toNat]? = some (some w) ∧
      exec i s = .next (State.answered
        { s with slots := s.slots.set i.slot.toNat (some (setCounter w c)) } 0x00 .empty)) ∨
    (∃ w w' z p, ((i = .nextb i.slot ∧ p = .bytes (serialize z)) ∨ (i = .nextw i.slot ∧ p = .words z.toList)) ∧
      s.slots[i.slot.toNat]? = some (some w) ∧ z = blockWords w ∧ incr w = some w' ∧
      exec i s = .next (State.answered
        { s with x := z, slots := s.slots.set i.slot.toNat (some w') } 0x00 p)) ∨
    (∃ w z p, ((i = .nextb i.slot ∧ p = drawBytes s.draws) ∨ (i = .nextw i.slot ∧ p = drawWords s.draws)) ∧
      s.slots[i.slot.toNat]? = some (some w) ∧ z = blockWords w ∧ incr w = none ∧
      exec i s = .next { s with
        slots := s.slots.set i.slot.toNat (some (drawCounter w s.draws)), status := { last := 0x05, exh := true }, x := z,
        draws := s.draws + 66, out := s.out ++ [{ host := s.client, status := 0x00000105, payload := p }] }) := by
  have h := exec_ending i s
  generalize exec i s = r at h
  cases h with
  | error e he => exact .inl ⟨e, he.1, he.2, rfl⟩
  | created key nonce hi hs hk hn => exact .inr (.inl ⟨key, nonce, hi, hs, hk, hn, rfl⟩)
  | told w hi hw => exact .inr (.inr (.inl ⟨w, hi, hw, rfl⟩))
  | sought w c hi hw => exact .inr (.inr (.inr (.inl ⟨w, c, hi, hw, rfl⟩)))
  | advanced w w' p hi hw hn =>
    refine .inr (.inr (.inr (.inr (.inl ⟨w, w', blockWords w, p, hi, hw, rfl, hn, ?_⟩))))
    rw [complete_eq]
    generalize blockWords w = z
    rfl
  | exhausted w p hi hw hn =>
    refine .inr (.inr (.inr (.inr (.inr ⟨w, blockWords w, p, hi, hw, rfl, hn, ?_⟩))))
    rw [raiseCounterExhausted_eq]

/-- No steps. -/
theorem core_run_zero (s : State) : core.run 0 s = .next s := rfl

/-- One step, then the rest. -/
theorem core_run_succ (k : Nat) (s : State) :
    core.run (k + 1) s =
      match step s with
      | .next t => core.run k t
      | .fault r => .fault r
      | .refused r => .refused r := by
  have unroll : ∀ (M : Host.Core) (u : M.State), M.run (k + 1) u =
      match M.step u with
      | .next t => M.run k t
      | .fault r => .fault r
      | .refused r => .refused r := fun _ _ => rfl
  have h := unroll core s
  cases hs : step s with
  | next t => have hc : core.step s = .next t := hs; rw [hc] at h; exact h
  | fault r => have hc : core.step s = .fault r := hs; rw [hc] at h; exact h
  | refused r => have hc : core.step s = .refused r := hs; rw [hc] at h; exact h

section
variable (slot : BitVec 8)

/-- A command on another slot drives this one in no way. -/
theorem drivesSlot_of_ne (i : Instr) (h : i.slot ≠ slot) : drivesSlot slot i = none := if_neg h

@[simp] theorem drivesSlot_create (k n : List Byte) : drivesSlot slot (.create slot k n) = none := if_pos rfl
@[simp] theorem drivesSlot_nextb : drivesSlot slot (.nextb slot) = some none := if_pos rfl
@[simp] theorem drivesSlot_nextw : drivesSlot slot (.nextw slot) = some none := if_pos rfl
@[simp] theorem drivesSlot_seek (c : DWord) : drivesSlot slot (.seek slot c) = some (some c) := if_pos rfl
@[simp] theorem drivesSlot_tell : drivesSlot slot (.tell slot) = none := if_pos rfl

@[simp] theorem payloadsOf_nil : payloadsOf slot [] [] = [] := rfl

/-- The first command's payload counts exactly when the command drives the slot. -/
theorem payloadsOf_cons (i : Instr) (is : List Instr) (r : Response) (rs : List Response) :
    payloadsOf slot (i :: is) (r :: rs) =
      match drivesSlot slot i with
      | none => payloadsOf slot is rs
      | some _ => r.payloadBytes :: payloadsOf slot is rs := by
  simp only [payloadsOf, List.zip_cons_cons, List.filterMap_cons]
  cases drivesSlot slot i <;> rfl

end

end Sys2Proof.Machine
end

