-- ==== Sys2Proof/Laws/PerInstr.lean ====
section
/-! SUPPORT. Facts about every instruction as syntax, one lemma per constructor: the length the command word of an encoded command
announces is the length the encoded command has (spec/30_encoding.md R74, R81). -/

namespace Sys2Proof.Laws.AnnouncedLength

open Sys2Proof Sys2Proof.Machine

/-- The fields at the head of the encoded command announce its length. -/
def Statement (i : Instr) : Prop :=
  i.wellFormed = true →
    ∃ op klen nlen r, encode i = op :: i.slot :: klen :: nlen :: r ∧ (encode i).length = lengthOfFields op klen nlen

theorem create (slot : BitVec 8) (key nonce : List Byte) : Statement (.create slot key nonce) := by
  intro h
  simp only [Instr.wellFormed, Bool.and_eq_true, decide_eq_true_eq] at h
  refine ⟨_, _, _, _, rfl, ?_⟩
  simp [encode, lengthOfFields]
  omega

theorem nextb (slot : BitVec 8) : Statement (.nextb slot) := fun _ => ⟨_, _, _, _, rfl, rfl⟩

theorem nextw (slot : BitVec 8) : Statement (.nextw slot) := fun _ => ⟨_, _, _, _, rfl, rfl⟩

theorem seek (slot : BitVec 8) (c : DWord) : Statement (.seek slot c) := fun _ => ⟨_, _, _, _, rfl, rfl⟩

theorem tell (slot : BitVec 8) : Statement (.tell slot) := fun _ => ⟨_, _, _, _, rfl, rfl⟩

end Sys2Proof.Laws.AnnouncedLength
end

