-- ==== Sys2Proof/Machine/Assembly.lean ====
section
/-! DEFINITION. The assembly syntax of spec/30_encoding.md R80: from the text of a program to the bytes a host sends. The engine never
sees the text. -/

namespace Sys2Proof.Machine

/-- One line of assembly (R80): a command, or the directive `.raw`, which spells any byte string, legal or not. -/
inductive AsmLine where
  | command (i : Instr)
  | raw (bytes : List Byte)
deriving DecidableEq, Repr

/-- The bytes of a line in send order: a command's encoding (R81), `.raw` its bytes as they stand. -/
def AsmLine.bytes : AsmLine → List Byte
  | .command i => encode i
  | .raw bs => bs

/-- A space or a tab. -/
def isBlank (c : Char) : Bool := c = ' ' || c = '\t'

/-- The text without blanks at its two ends. -/
def trimBlanks (t : List Char) : List Char := ((t.dropWhile isBlank).reverse.dropWhile isBlank).reverse

/-- The pieces of a text between the separators. -/
def splitChars (sep : Char) : List Char → List (List Char)
  | [] => [[]]
  | c :: cs =>
    if c = sep then [] :: splitChars sep cs
    else
      match splitChars sep cs with
      | [] => [[c]]
      | p :: ps => (c :: p) :: ps

/-- The value of a hexadecimal digit, of either case (notes/assumptions/21.md). -/
def hexDigit (c : Char) : Option Nat :=
  if '0' ≤ c ∧ c ≤ '9' then some (c.toNat - 48)
  else if 'a' ≤ c ∧ c ≤ 'f' then some (c.toNat - 87)
  else if 'A' ≤ c ∧ c ≤ 'F' then some (c.toNat - 55)
  else none

/-- The digits of a number in `base`, most significant first, on top of the value read so far. -/
def digitsValue (base : Nat) : Nat → List Char → Option Nat
  | acc, [] => some acc
  | acc, c :: cs =>
    match hexDigit c with
    | some d => if d < base then digitsValue base (base * acc + d) cs else none
    | none => none

/-- A number (R80): hexadecimal with `0x`, or decimal. -/
def parseNumber : List Char → Option Nat
  | [] => none
  | ['0', 'x'] => none
  | '0' :: 'x' :: ds => digitsValue 16 0 ds
  | ds => digitsValue 10 0 ds

/-- Hexadecimal pairs. -/
def parsePairs : List Char → Option (List Byte)
  | [] => some []
  | [_] => none
  | h :: l :: cs =>
    match hexDigit h, hexDigit l, parsePairs cs with
    | some a, some b, some bs => some (BitVec.ofNat 8 (16 * a + b) :: bs)
    | _, _, _ => none

/-- A byte string (R80): hexadecimal pairs with optional spaces inside brackets. -/
def parseBytes (t : List Char) : Option (List Byte) :=
  match t with
  | '[' :: r =>
    match r.reverse with
    | ']' :: m => parsePairs (m.reverse.filter fun c => !isBlank c)
    | _ => none
  | _ => none

/-- A slot number, 0 to 255 (R80). -/
def parseSlot (t : List Char) : Option (BitVec 8) :=
  match parseNumber t with
  | some n => if n < 256 then some (BitVec.ofNat 8 n) else none
  | none => none

/-- A 64-bit counter value (R80). -/
def parseCounter (t : List Char) : Option DWord :=
  match parseNumber t with
  | some n => if n < 2 ^ 64 then some (BitVec.ofNat 64 n) else none
  | none => none

/-- A mnemonic or directive with its operands (R80). A key or nonce of 256 bytes or more cannot be spelled (R78). -/
def parseOperands (mnemonic : List Char) (operands : List (List Char)) : Option AsmLine :=
  match operands with
  | [s] =>
    if mnemonic = ['.', 'r', 'a', 'w'] then (parseBytes s).map .raw
    else if mnemonic = ['N', 'E', 'X', 'T', 'B'] then (parseSlot s).map fun s => .command (.nextb s)
    else if mnemonic = ['N', 'E', 'X', 'T', 'W'] then (parseSlot s).map fun s => .command (.nextw s)
    else if mnemonic = ['T', 'E', 'L', 'L'] then (parseSlot s).map fun s => .command (.tell s)
    else none
  | [s, c] =>
    if mnemonic = ['S', 'E', 'E', 'K'] then
      match parseSlot s, parseCounter c with
      | some s, some c => some (.command (.seek s c))
      | _, _ => none
    else none
  | [s, k, n] =>
    if mnemonic = ['C', 'R', 'E', 'A', 'T', 'E'] then
      match parseSlot s, parseBytes k, parseBytes n with
      | some s, some k, some n =>
        if (Instr.create s k n).wellFormed then some (.command (.create s k n)) else none
      | _, _, _ => none
    else none
  | _ => none

/-- One line (R80): `;` starts a comment, and a line with nothing before it spells nothing. The outer `none` is a line that is no
assembly. -/
def parseLine (line : List Char) : Option (Option AsmLine) :=
  let t := trimBlanks (line.takeWhile (· ≠ ';'))
  if t = [] then some none
  else
    let mnemonic := t.takeWhile fun c => !isBlank c
    let operands := (splitChars ',' (t.drop mnemonic.length)).map trimBlanks
    (parseOperands mnemonic operands).map some

/-- The bytes of a program in send order, one command per line (R80); none where a line is no assembly. -/
def assemble (text : List Char) : Option (List Byte) :=
  (splitChars '\n' text).foldr (fun line rest =>
    match parseLine line, rest with
    | some l, some bs => some ((l.map AsmLine.bytes).getD [] ++ bs)
    | _, _ => none) (some [])

end Sys2Proof.Machine
end

