-- ==== Sys2Proof/Tests/Slice0.lean ====
section
/-! SUPPORT. Tests on fixed values, each from the vector of spec/95_test_vectors.md or the rule its comment names; and, for every
obligation with hypotheses, a witness: concrete values that meet them together, each clause at the ends of its range. -/

namespace Sys2Proof.Tests

open Sys2Proof.Machine

/-! ## Helpers -/

def zeros (n : Nat) : List Byte := List.replicate n 0

/-- The bytes 00 01 02 and on. -/
def upTo (n : Nat) : List Byte := (List.range n).map (BitVec.ofNat 8)

/-- The words of V11 but for the counter words 12 and 13, given here. -/
def v11At (lo hi : Word) : Block :=
  #v[0x61707865, 0x3320646e, 0x79622d32, 0x6b206574, 0, 0, 0, 0, 0, 0, 0, 0, lo, hi, 0, 0]

/-- An engine with two slots and COUNTER_ACCESS (V40): slot 0 holds `w`, slot 1 is invalid. -/
def engine (w : Block) : State := { State.resetWith { nctx := 2, counterAccess := true } with slots := [some w, none] }

/-- The same engine without COUNTER_ACCESS. -/
def engineWithout (w : Block) : State := { engine w with counterAccess := false }

/-- The engine with slot 0 as V11 has it and the bytes `b` in CMDBUF. -/
def holding (b : List Byte) : State := { engine (v11At 0 0) with cmdbuf := b }

def nextState : Result → Option State
  | .next s => some s
  | .fault _ => none
  | .refused _ => none

/-- STATUS and payload of the responses in the next state, if there is one. -/
def responses (r : Result) : Option (List (Word × Payload)) := (nextState r).map fun s => s.out.map fun o => (o.status, o.payload)

/-- The values of STATUS among them. -/
def statuses (r : Result) : Option (List Word) := (nextState r).map fun s => s.out.map (·.status)

/-- The words of slot 0 in the next state, if it is valid there. -/
def slot0 (r : Result) : Option (List Word) :=
  (nextState r).bind fun s => (s.slots[0]?.getD none).map (·.toList)

/-! ## WellFormed -/

theorem test_wellformed_refuses_long_key : (Instr.create 0 (zeros 256) []).wellFormed = false := by decide +kernel

theorem test_wellformed_refuses_long_nonce : (Instr.create 0 [] (zeros 256)).wellFormed = false := by decide +kernel

theorem test_wellformed_accepts_255 : (Instr.create 255 (zeros 255) (zeros 255)).wellFormed = true := by decide +kernel

/-! ## Decode: words written out from R71, R76, R81, and the rows of V40 -/

/-- `CREATE 3, [31 bytes], [7 bytes]` is `01 03 1f 07` and 42 bytes long (V40). -/
theorem test_decode_create : decode ([0x01, 0x03, 0x1f, 0x07] ++ zeros 38) = .command ⟨0x01, 0x03, 0x1f, 0x07, zeros 38⟩ 42 ∧
    classify ⟨0x01, 0x03, 0x1f, 0x07, zeros 38⟩ = .ok (.create 3 (zeros 31) (zeros 7)) := by decide +kernel

/-- Key first, nonce after it (R73, V10). -/
theorem test_decode_create_operands :
    classify ⟨0x01, 0x00, 0x20, 0x08, upTo 32 ++ upTo 8⟩ = .ok (.create 0 (upTo 32) (upTo 8)) := by decide +kernel

/-- `NEXTB 0x5a`: OP 00000010, SLOT 01011010, KLEN and NLEN 0, bit 31 first. -/
theorem test_decode_nextb : decodeTableWord 32 0b00000000000000000101101000000010 = some (.nextb 0x5a) := by decide +kernel

/-- `NEXTW 1` is command word 0x00000103 (R81). -/
theorem test_decode_nextw : decodeTableWord 32 0b00000000000000000000000100000011 = some (.nextw 1) := by decide +kernel

/-- `SEEK 2, c` is `04 02 00 00` and then c, least significant byte first (R81). -/
theorem test_decode_seek : decode [0x04, 0x02, 0, 0, 0xfe, 0xff, 0x03, 0x04, 0x05, 0x06, 0x07, 0x80] =
      .command ⟨0x04, 0x02, 0, 0, [0xfe, 0xff, 0x03, 0x04, 0x05, 0x06, 0x07, 0x80]⟩ 12 ∧
    classify ⟨0x04, 0x02, 0, 0, [0xfe, 0xff, 0x03, 0x04, 0x05, 0x06, 0x07, 0x80]⟩ = .ok (.seek 2 0x800706050403fffe) := by
  decide +kernel

/-- `TELL 255`: OP 00000101, SLOT 11111111. -/
theorem test_decode_tell : decodeTableWord 32 0b00000000000000001111111100000101 = some (.tell 255) := by decide +kernel

/-- `encode` writes the bytes of R81. -/
theorem test_encode_bytes : encode (.seek 0 0x00000000ffffffff) = [4, 0, 0, 0, 0xff, 0xff, 0xff, 0xff, 0, 0, 0, 0] ∧
    encode (.create 0 (upTo 32) (upTo 8)) = [0x01, 0x00, 0x20, 0x08] ++ upTo 32 ++ upTo 8 ∧
    encode (.nextb 0) = [2, 0, 0, 0] ∧ encode (.nextw 1) = [3, 1, 0, 0] ∧ encode (.tell 0) = [5, 0, 0, 0] := by decide +kernel

/-- An incomplete CREATE of the greatest length is not a command yet; with its last byte it is 514 bytes (V13). -/
theorem test_decode_longest_create : decode ([1, 0, 0xff, 0xff] ++ zeros 509) = .needMore ∧
    decode ([1, 0, 0xff, 0xff] ++ zeros 510) = .command ⟨1, 0, 0xff, 0xff, zeros 510⟩ 514 := by decide +kernel

/-- Every row of V40 with its LAST. -/
theorem test_v40_outcomes :
    ([[2, 0, 0, 0], [3, 0, 0, 0], [3, 1, 0, 0], [3, 2, 0, 0], [2, 0, 1, 0], [2, 1, 0, 1], [0, 0, 0, 0], [6, 0, 0, 0],
      [0xff, 5, 0x20, 8], [4, 0, 0, 0] ++ zeros 8, [5, 0, 0, 0], [1, 0, 0x20, 8] ++ zeros 40, [1, 3, 0x1f, 7] ++ zeros 38].map
        fun b => statuses (step (holding b))) =
      [some [0], some [0], some [4], some [3], some [2], some [2], some [2], some [2], some [2], some [0], some [0], some [0],
        some [3]] := by decide +kernel

/-- The two rows of V40 without COUNTER_ACCESS; SEEK's eight operand bytes are consumed. -/
theorem test_v40_without_counter_access :
    ([[4, 0, 0, 0] ++ zeros 8, [5, 0, 0, 0]].map fun b =>
      (nextState (step { holding b with counterAccess := false })).map fun s => (s.out.map (·.status), s.cmdbuf)) =
      [some ([2], []), some ([2], [])] := by decide +kernel

/-! ## Assembly -/

/-- The lines of P2 and P3 that spell a directive, a SEEK, a comment and blanks, and a CREATE with its bytes in pairs. -/
theorem test_assemble : assemble
      ".raw   [07 00 00 00]\nSEEK   0, 0x00000000ffffffff ; then NEXTB\n\nNEXTB  0\nCREATE 1, [00 1F], [ff]\nTELL 255".toList =
    some [0x07, 0x00, 0x00, 0x00, 0x04, 0x00, 0x00, 0x00, 0xff, 0xff, 0xff, 0xff, 0x00, 0x00, 0x00, 0x00, 0x02, 0x00, 0x00, 0x00,
      0x01, 0x01, 0x02, 0x01, 0x00, 0x1f, 0xff, 0x05, 0xff, 0x00, 0x00] := by decide +kernel

/-- Slot numbers are 0 to 255, byte strings are pairs (R80). -/
theorem test_assemble_refuses : assemble "TELL 256".toList = none ∧ assemble ".raw [070]".toList = none ∧
    assemble "NEXTB 0x".toList = none ∧ assemble "SEEK 0, 0x10000000000000000".toList = none := by decide +kernel

/-! ## Codec, word operations and rounds -/

/-- V15. -/
theorem test_v15_unpack_pack : unpack [0x00, 0x01, 0x02, 0x03] 0 (by decide) = 0x03020100 ∧
    unpack [0x9, 0x00, 0x00, 0x00, 0x80] 1 (by decide) = 0x80000000 ∧ unpack [0x80, 0, 0, 0] 0 (by decide) = 0x00000080 ∧
    pack 0xade0b876 [1, 2, 3, 4, 5, 6] 1 = [1, 0x76, 0xb8, 0xe0, 0xad, 6] := by decide +kernel

/-- V16. -/
theorem test_v16_word_operations : add32 0x80000000 0x80000000 = 0 ∧ xor32 0xf0f0f0f0 0x0ff00ff0 = 0xff00ff00 ∧
    rotl32 0x12345678 12 = 0x45678123 ∧ rotl32 0x12345678 8 = 0x34567812 ∧ rotl32 0x00000001 7 = 0x00000080 := by decide +kernel

/-- V20 on the positions 3, 4, 9, 14 of the last diagonal group. -/
theorem test_v20_quarter_round :
    (quarterRound 3 4 9 14
      #v[0, 0, 0, 0x11111111, 0x01020304, 0, 0, 0, 0, 0x9b8d6f43, 0, 0, 0, 0, 0x01234567, 0]).toList =
      [0, 0, 0, 0xea2a92f4, 0xcb1cf8ce, 0, 0, 0, 0, 0x4581472e, 0, 0, 0, 0, 0x5881c4bb, 0] := by decide +kernel

/-- V21. -/
theorem test_v21_column_round : (columnRound (v11At 0 0)).toList =
    [0xb7877feb, 0x16526ab4, 0xa0f85005, 0xb1d26bcb, 0x4a7d5c86, 0xfae0ea21, 0x66e11e68, 0xe3a851a6,
     0x5a83fd3f, 0xa0c7c792, 0xf75be0ef, 0x0b7556f4, 0xe21e9bcf, 0x3c599472, 0xca29678d, 0xa600ebd4] := by decide +kernel

/-- V22. -/
theorem test_v22_double_round : (doubleRound (v11At 0 0)).toList =
    [0xe45fd249, 0x1bb820a6, 0xe31a88ea, 0xe667a9fe, 0x2a3bf673, 0x86bf4098, 0x460b500a, 0xfa169886,
     0x538dca0e, 0x0c439641, 0x00fa16bc, 0x8a08812a, 0x6bbf8b09, 0xc33013d6, 0xbb9f9849, 0x87c62165] := by decide +kernel

/-- V23. -/
theorem test_v23_permutation : (perm (v11At 0 0)).toList =
    [0x4c704011, 0x5d1d8d32, 0x6c08300e, 0xbd9d20df, 0xb819d2bd, 0x1aed8da0, 0xccef36a8, 0xc70d778b,
     0x7c5941da, 0x8d485751, 0x3fe02477, 0x374ad8b8, 0xf4b8436a, 0x1ca11815, 0x69b687c3, 0x8665eeb2] := by decide +kernel

/-! ## The five commands -/

/-- V10: the sixteen words. -/
theorem test_v10_create : slot0 (exec (.create 0 (upTo 32) (upTo 8)) State.reset) =
    some [0x61707865, 0x3320646e, 0x79622d32, 0x6b206574, 0x03020100, 0x07060504, 0x0b0a0908, 0x0f0e0d0c,
      0x13121110, 0x17161514, 0x1b1a1918, 0x1f1e1d1c, 0x00000000, 0x00000000, 0x03020100, 0x07060504] := by decide +kernel

/-- V13: other lengths are refused, the slot kept; SlotOutOfRange wins (NCTX is 2 here). -/
theorem test_v13_create_refused :
    ([(0, 31, 8), (0, 33, 8), (0, 32, 7), (0, 32, 9), (0, 0, 0), (0, 8, 32), (0, 255, 255), (2, 32, 8), (2, 31, 8)].map
      fun (c : BitVec 8 × Nat × Nat) =>
        let r := exec (.create c.1 (zeros c.2.1) (zeros c.2.2)) (engine (v11At 5 6))
        (statuses r, decide (slot0 r = some (v11At 5 6).toList))) =
      [(some [1], true), (some [1], true), (some [1], true), (some [1], true), (some [1], true), (some [1], true),
        (some [1], true), (some [3], true), (some [3], true)] := by decide +kernel

/-- V32: the block before the carry, and the counter after it. -/
theorem test_v32_nextb_carry :
    responses (exec (.nextb 0) (engine (v11At 0xffffffff 0))) = some [(0, .bytes
      [0xac, 0xe4, 0xcd, 0x09, 0xe2, 0x94, 0xd1, 0x91, 0x2d, 0x4a, 0xd2, 0x05, 0xd0, 0x6f, 0x95, 0xd9,
       0xc2, 0xf2, 0xbf, 0xcf, 0x45, 0x3e, 0x87, 0x53, 0xf1, 0x28, 0x76, 0x5b, 0x62, 0x21, 0x5f, 0x4d,
       0x92, 0xc7, 0x4f, 0x2f, 0x62, 0x6c, 0x6a, 0x64, 0x0c, 0x0b, 0x12, 0x84, 0xd8, 0x39, 0xec, 0x81,
       0xf1, 0x69, 0x62, 0x81, 0xda, 0xfc, 0x3e, 0x68, 0x45, 0x93, 0x93, 0x70, 0x23, 0xb5, 0x8b, 0x1d])] ∧
    slot0 (exec (.nextb 0) (engine (v11At 0xffffffff 0))) = some (v11At 0 1).toList := by decide +kernel

/-- V35: STATUS 0x105, and every word but the counter's unchanged. -/
theorem test_v35_nextb_exhausted :
    statuses (exec (.nextb 0) (engine (v11At 0xffffffff 0xffffffff))) = some [0x00000105] ∧
    (slot0 (exec (.nextb 0) (engine (v11At 0xffffffff 0xffffffff)))).map (fun l => (l.take 12, l.drop 14)) =
      some ((v11At 0 0).toList.take 12, [0, 0]) := by decide +kernel

/-- V25: NEXTW on the V10 state. -/
theorem test_v25_nextw :
    responses (exec (.nextw 0) (engine #v[0x61707865, 0x3320646e, 0x79622d32, 0x6b206574, 0x03020100, 0x07060504, 0x0b0a0908,
      0x0f0e0d0c, 0x13121110, 0x17161514, 0x1b1a1918, 0x1f1e1d1c, 0x00000000, 0x00000000, 0x03020100, 0x07060504])) =
    some [(0, .words
      [0x89a198f7, 0x69e695f1, 0xfb5f1082, 0x75b70b64, 0xa39d577f, 0x93fc0216, 0x56ac01ec, 0xc1c35af8,
       0x7b54a434, 0x41463b73, 0x44c94230, 0x69174900, 0x59bed305, 0xf1531cea, 0x5c151659, 0x1a24e82b])] := by decide +kernel

/-- V34 in word form (P5): the last block without fault. -/
theorem test_v34_nextw_last_block :
    responses (exec (.nextw 0) (engine (v11At 0xfffffffe 0xffffffff))) = some [(0, .words
      [0x1f6f2283, 0xf2aa02a7, 0x236fa78e, 0x32269a99, 0x41f19030, 0x9decd3b3, 0xe43585dc, 0x5d41a3de,
       0x9e0fda1a, 0xbf59b8a3, 0x03c4a9f3, 0x585244a2, 0x72e98fb9, 0xf0caa5ac, 0x352c7553, 0xb820755c])] ∧
    slot0 (exec (.nextw 0) (engine (v11At 0xfffffffe 0xffffffff))) = some (v11At 0xffffffff 0xffffffff).toList := by
  decide +kernel

/-- P3: SEEK to 0x00000000ffffffff, on a state with EXH set, which it keeps (R229). -/
theorem test_p3_seek :
    let r := exec (.seek 0 0x00000000ffffffff) { engine (v11At 7 8) with status := ⟨0x05, true⟩ }
    slot0 r = some (v11At 0xffffffff 0).toList ∧ responses r = some [(0x00000100, .empty)] := by decide +kernel

/-- P3: TELL after the carry returns the low word first. -/
theorem test_p3_tell : responses (exec (.tell 0) (engine (v11At 0 1))) = some [(0, .words [0, 1])] := by decide +kernel

/-- R250: a reset ends a half-sent command and clears STATUS and the slots. -/
theorem test_reset_event :
    (nextState (step { holding [1, 0, 0x20] with status := ⟨0x05, true⟩, port := [.reset] })).map
      (fun s => (s.slots, s.status.word, s.cmdbuf, s.out)) = some ([none, none], 0, [], []) := by decide +kernel

/-! ## Witnesses of the obligations' hypotheses -/

/-- The last slot of the greatest NCTX. -/
theorem witness_ResetLeavesEverySlotInvalid : 255 < (Params.mk 256 true).nctx := by decide

/-- A whole command is in CMDBUF when the reset comes. -/
theorem witness_ResetEventKeepsTheParameters :
    ({ holding [2, 0, 0, 0] with port := [.reset, .idle] } : State).port = .reset :: [.idle] := rfl

theorem witness_NoStepChangesTheParameters :
    ∃ t, step { State.reset with port := [.byte 0 0x01] } = .next t := ⟨_, rfl⟩

theorem witness_RotateMovesEveryBitAndLosesNone : (16 ∈ [16, 12, 8, 7] ∧ 7 ∈ [16, 12, 8, 7]) ∧ 31 < 32 := by decide

theorem witness_QuarterRoundTakesItsFourSteps :
    ([0, 4, 8, 12] : List (Fin 16)).Nodup ∧ (15 : Fin 16) ∉ ([0, 4, 8, 12] : List (Fin 16)) := by decide

/-- The rounds in reverse order, and the last word of a group of each. -/
theorem witness_RoundIsFourIndependentLanes :
    columnGroups.reverse.Perm columnGroups ∧ diagonalGroups.reverse.Perm diagonalGroups ∧
    ((3, 7, 11, 15) ∈ columnGroups ∧ (15 : Fin 16) ∈ ([3, 7, 11, 15] : List (Fin 16))) ∧
    ((3, 4, 9, 14) ∈ diagonalGroups ∧ (14 : Fin 16) ∈ ([3, 4, 9, 14] : List (Fin 16))) := by
  refine ⟨List.reverse_perm _, List.reverse_perm _, ?_, ?_⟩ <;> decide

/-- The last offset of a six-byte string. -/
theorem witness_PackWritesExactlyFourBytes : 2 + 3 < (zeros 6).length ∧ 1 < 2 := by decide

theorem witness_CodecRoundTripsBothWays :
    2 + 3 < (pack 0xade0b876 (zeros 6) 2).length ∧ 2 + 3 < (upTo 6).length ∧ 2 + 3 < (zeros 6).length := by decide

/-- Each width at the end of a string of forty bytes, and the commands of the last clause. -/
theorem witness_MemReadAndMemWriteAreLittleEndian :
    (39 + 1 ≤ (zeros 40).length ∧ 36 + 4 ≤ (zeros 40).length ∧ 32 + 8 ≤ (zeros 40).length ∧ 36 + 3 < (zeros 40).length) ∧
    decode ([0x01, 0, 0x20, 0x08] ++ zeros 40) = .command ⟨0x01, 0, 0x20, 0x08, zeros 40⟩ 44 ∧ 7 < 8 ∧ 1 < 2 ∧ 15 < 16 ∧
    decode ([0x04, 0, 0, 0] ++ zeros 8) = .command ⟨0x04, 0, 0, 0, zeros 8⟩ 12 := by decide +kernel

/-- For each of the three lengths a string one byte short and one just long enough. -/
theorem witness_DecoderReadsTheFieldsAndTheLength :
    [(0x01 : Byte), 0, 0].length < 4 ∧
    ((zeros 509).length + 4 < 4 + (0xff : Byte).toNat + (0xff : Byte).toNat ∧
      4 + (0xff : Byte).toNat + (0xff : Byte).toNat ≤ (zeros 510).length + 4) ∧
    ((zeros 7).length + 4 < 12 ∧ 12 ≤ (zeros 8).length + 4) ∧ 4 ≤ (zeros 0).length + 4 := by decide +kernel

/-- The longest command there is. -/
theorem witness_DecodeOfEncodeIsTheInstruction : (Instr.create 255 (zeros 255) (zeros 255)).wellFormed = true := by decide +kernel

theorem witness_EncodeOfDecodeIsTheBytes :
    decode ([0x04, 9, 0, 0] ++ upTo 10) = .command ⟨0x04, 9, 0, 0, upTo 8⟩ 12 ∧
    classify ⟨0x04, 9, 0, 0, upTo 8⟩ = .ok (.seek 9 0x0706050403020100) := by decide +kernel

/-- An engine with a valid slot and a whole command is well formed, and takes a step. -/
theorem witness_engine_inv : EngineInv (holding [2, 0, 0, 0]) := by
  refine ⟨by decide, ?_, by decide, by decide, by intro r h; cases h⟩
  intro w h
  simp only [holding, engine, List.mem_cons, Option.some.injEq, List.not_mem_nil, or_false, reduceCtorEq] at h
  subst h
  decide

theorem witness_StepRunsTheDecodedInstruction :
    (∀ es, (holding [2, 0, 0, 0]).port ≠ .reset :: es) ∧ decode (holding [2, 0, 0, 0]).cmdbuf = .command ⟨2, 0, 0, 0, []⟩ 4 ∧
    classify ⟨2, 0, 0, 0, []⟩ = .ok (.nextb 0) ∧ EngineInv (holding [2, 0, 0, 0]) :=
  ⟨fun _ => List.cons_ne_nil _ _ ∘ Eq.symm, by decide, by decide, witness_engine_inv⟩

theorem witness_PlacedTableWordRunsNext : decodeTableWord 32 0x00000002 = some (.nextb 0) := by decide +kernel

/-- Three bytes of a command, with nothing, a byte and a pause to come. -/
theorem witness_IncompleteCommandWaits :
    decode (holding [3, 0, 0]).cmdbuf = .needMore ∧ (holding [3, 0, 0]).port = [] ∧
    ({ holding [3, 0, 0] with port := [.byte 7 0] } : State).port = .byte 7 0 :: [] ∧
    ({ holding [3, 0, 0] with port := [.idle] } : State).port = .idle :: [] := by decide

/-- Each ground of R78 at the ends of its range: OP 0x00, 0x06, 0xff; SEEK and TELL without COUNTER_ACCESS; OP 0x02 and 0x05 with
one length field not zero; and the two ends of what is legal. -/
theorem witness_IllegalCommandIsConsumedAndReported :
    (∀ es, (holding [6, 0, 0, 0]).port ≠ .reset :: es) ∧
    decode [0, 0, 0, 0] = .command ⟨0, 0, 0, 0, []⟩ 4 ∧ decode [6, 0, 0, 0] = .command ⟨6, 0, 0, 0, []⟩ 4 ∧
    decode [0xff, 0, 0, 0] = .command ⟨0xff, 0, 0, 0, []⟩ 4 ∧ (engineWithout (v11At 0 0)).counterAccess = false ∧
    decode [2, 0, 1, 0] = .command ⟨2, 0, 1, 0, []⟩ 4 ∧ decode [5, 0, 0, 1] = .command ⟨5, 0, 0, 1, []⟩ 4 ∧
    decode [5, 0, 0, 0] = .command ⟨5, 0, 0, 0, []⟩ 4 ∧ decode [1, 0, 0, 0] = .command ⟨1, 0, 0, 0, []⟩ 4 :=
  ⟨fun _ => List.cons_ne_nil _ _ ∘ Eq.symm, by decide, by decide, by decide, by decide, by decide, by decide, by decide, by decide⟩

/-- Two hosts, three commands. -/
theorem witness_StreamRunsItsCommandsInOrder :
    let cmds := [(1, Instr.create 0 (upTo 32) (upTo 8)), (2, .nextb 0), (1, .tell 0)]
    let s := { State.reset with port := portStream cmds }
    (∀ c ∈ cmds, c.2.wellFormed = true) ∧ s.cmdbuf = [] ∧ s.port = portStream cmds := by
  refine ⟨by decide +kernel, rfl, rfl⟩

/-- NCTX is 2: slot 2 is out of range and slot 1 is the last in range; key and nonce of the lengths beside 32 and 8, and of those. -/
theorem witness_CreateBuildsTheContextOrRefuses :
    (engine (v11At 0 0)).nctx ≤ (2 : BitVec 8).toNat ∧ (1 : BitVec 8).toNat < (engine (v11At 0 0)).nctx ∧
    ((zeros 31).length ≠ 32 ∧ (zeros 33).length ≠ 32 ∧ (zeros 7).length ≠ 8 ∧ (zeros 9).length ≠ 8) ∧
    (zeros 32).length = 32 ∧ (zeros 8).length = 8 ∧ (⟨0x01, 0, 0, 0, []⟩ : RawCommand).op = 0x01 := by decide

/-- The last value, the last carry, and the value before a carry. -/
theorem witness_CounterAdvanceCarriesByExactlyOne :
    ((v11At 0xffffffff 0xffffffff)[12] = 0xffffffff ∧ (v11At 0xffffffff 0xffffffff)[13] = 0xffffffff) ∧
    ((v11At 0xffffffff 0xfffffffe)[12] = 0xffffffff ∧ (v11At 0xffffffff 0xfffffffe)[13] ≠ 0xffffffff) ∧
    (v11At 0xfffffffe 0xffffffff)[12] ≠ 0xffffffff ∧ (incr (v11At 0xfffffffe 0xffffffff)).isSome = true := by decide

/-- The hypotheses of NextwReturnsTheBlockWords, NextbReturnsTheSerializedBlock and ByteAndWordFormsAgree at the first counter value
and at the last. -/
theorem witness_NextwReturnsTheBlockWords :
    ((engine (v11At 0 0)).slots[(0 : BitVec 8).toNat]? = some (some (v11At 0 0)) ∧ (blockCounter (v11At 0 0)).toNat < 2 ^ 64 - 1) ∧
    (engine (v11At 0xfffffffe 0xffffffff)).slots[(0 : BitVec 8).toNat]? = some (some (v11At 0xfffffffe 0xffffffff)) ∧
    (blockCounter (v11At 0xfffffffe 0xffffffff)).toNat < 2 ^ 64 - 1 := by decide +kernel

theorem witness_NextbReturnsTheSerializedBlock :
    (engine (v11At 0xffffffff 0)).slots[(0 : BitVec 8).toNat]? = some (some (v11At 0xffffffff 0)) ∧
    (blockCounter (v11At 0xffffffff 0)).toNat < 2 ^ 64 - 1 := by decide +kernel

theorem witness_ByteAndWordFormsAgree :
    (engine (v11At 1 0)).slots[(0 : BitVec 8).toNat]? = some (some (v11At 1 0)) ∧
    (blockCounter (v11At 1 0)).toNat < 2 ^ 64 - 1 := by decide +kernel

/-- The same context in slot 0 of one engine and in slot 1 of another. -/
theorem witness_BlockDependsOnKeyNonceAndCounterAlone :
    (engine (v11At 3 0)).slots[(0 : BitVec 8).toNat]? = some (some (v11At 3 0)) ∧
    ({ engineWithout (v11At 3 0) with slots := [none, some (v11At 3 0)] } : State).slots[(1 : BitVec 8).toNat]? =
      some (some (v11At 3 0)) ∧
    holdsSigma (v11At 3 0) = true ∧ (blockCounter (v11At 3 0)).toNat < 2 ^ 64 - 1 ∧ 1 ≠ (0 : BitVec 8).toNat := by decide +kernel

theorem witness_ExhaustionLeavesFreeCounterAndPayload :
    (engine (v11At 0xffffffff 0xffffffff)).slots[(0 : BitVec 8).toNat]? = some (some (v11At 0xffffffff 0xffffffff)) ∧
    (blockCounter (v11At 0xffffffff 0xffffffff)).toNat = 2 ^ 64 - 1 := by decide +kernel

/-- Each clause: no COUNTER_ACCESS; the first slot out of range; an invalid slot; a valid one; nonzero length fields; a whole
command. -/
theorem witness_SeekSetsTheCounterOrStops :
    (engineWithout (v11At 0 0)).counterAccess = false ∧
    ((engine (v11At 0 0)).counterAccess = true ∧ (engine (v11At 0 0)).nctx ≤ (2 : BitVec 8).toNat) ∧
    (engine (v11At 0 0)).slots[(1 : BitVec 8).toNat]? = some none ∧
    (engine (v11At 0 0)).slots[(0 : BitVec 8).toNat]? = some (some (v11At 0 0)) ∧
    ((⟨4, 0, 1, 0, zeros 8⟩ : RawCommand).klen ≠ 0 ∧ (⟨4, 0, 0, 0xff, zeros 8⟩ : RawCommand).nlen ≠ 0) ∧
    decode ([4, 0, 0, 0] ++ upTo 8) = .command ⟨4, 0, 0, 0, upTo 8⟩ 12 := by decide +kernel

theorem witness_TellReturnsTheCounterOrStops :
    (engineWithout (v11At 0 0)).counterAccess = false ∧
    ((engine (v11At 0 0)).counterAccess = true ∧ (engine (v11At 0 0)).nctx ≤ (2 : BitVec 8).toNat) ∧
    (engine (v11At 0 0)).slots[(1 : BitVec 8).toNat]? = some none ∧
    (engine (v11At 0 0)).slots[(0 : BitVec 8).toNat]? = some (some (v11At 0 0)) ∧
    (⟨5, 0, 1, 0, []⟩ : RawCommand).klen ≠ 0 ∧ (⟨5, 0, 0, 0, []⟩ : RawCommand).klen = 0 := by decide +kernel

theorem witness_InvalidSlotAnswersNoState :
    (engine (v11At 0 0)).slots[(1 : BitVec 8).toNat]? = some none ∧ (engine (v11At 0 0)).counterAccess = true := by decide

/-- NCTX is 2 and the slot 2; the second clause on a NEXTB without COUNTER_ACCESS. -/
theorem witness_AbsentSlotAnswersSlotOutOfRange :
    ((engine (v11At 0 0)).nctx ≤ (Instr.tell 2).slot.toNat ∧ (engine (v11At 0 0)).counterAccess = true) ∧
    (engineWithout (v11At 0 0)).nctx ≤ (Instr.nextb 2).slot.toNat ∧
    (∀ slot c, Instr.nextb 2 ≠ .seek slot c) ∧ ∀ slot, Instr.nextb 2 ≠ .tell slot := by
  refine ⟨by decide, by decide, fun _ _ h => ?_, fun _ h => ?_⟩ <;> cases h

/-- For each code of R231 a command and a state, each also meeting the ground of every later one where it can. -/
theorem witness_FirstApplicableCodeIsReported :
    decode [2, 2, 1, 0] = .command ⟨2, 2, 1, 0, []⟩ 4 ∧
    (decode ([1, 2, 0x1f, 8] ++ zeros 39) = .command ⟨1, 2, 0x1f, 8, zeros 39⟩ 43 ∧
      (engine (v11At 0 0)).nctx ≤ (2 : Byte).toNat) ∧
    (decode ([1, 1, 0x1f, 8] ++ zeros 39) = .command ⟨1, 1, 0x1f, 8, zeros 39⟩ 43 ∧
      (1 : Byte).toNat < (engine (v11At 0 0)).nctx) ∧
    (decode [3, 1, 0, 0] = .command ⟨3, 1, 0, 0, []⟩ 4 ∧ (engine (v11At 0 0)).valid 1 = false) ∧
    (decode [3, 0, 0, 0] = .command ⟨3, 0, 0, 0, []⟩ 4 ∧ (engine (v11At 0xffffffff 0xffffffff)).valid 0 = true ∧
      (blockCounter (v11At 0xffffffff 0xffffffff)).toNat = 2 ^ 64 - 1) ∧
    (blockCounter (v11At 0xfffffffe 0xffffffff)).toNat ≠ 2 ^ 64 - 1 := by decide +kernel

/-- One command for each of the four error codes. -/
theorem witness_ErrorsChangeNothingButLast :
    ([(⟨1, 0, 0, 0, []⟩ : RawCommand), ⟨0, 0, 0, 0, []⟩, ⟨2, 2, 0, 0, []⟩, ⟨2, 1, 0, 0, []⟩].map fun c =>
      (nextState (execCommand c (engine (v11At 0 0)))).map (·.status.last)) = [some 1, some 2, some 3, some 4] := by
  decide +kernel

/-- Each form that has a payload, successful, and an error of one. -/
theorem witness_EveryCommandSendsOneResponse :
    ([Instr.nextb 0, .nextw 0, .tell 0, .create 0 (upTo 32) (upTo 8), .seek 0 9, .nextb 1].map fun i =>
      (nextState (exec i (engine (v11At 0 0)))).map (·.status.last)) = [some 0, some 0, some 0, some 0, some 0, some 4] := by
  decide +kernel

/-- The exhaustion and the success of a NEXTB, an error of it, and a TELL. -/
theorem witness_CommandsWriteOnlyWhatTheirRowNames :
    (nextState (exec (.nextb 0) (engine (v11At 0xffffffff 0xffffffff)))).map (·.status.last) = some 0x05 ∧
    (nextState (exec (.nextb 0) (engine (v11At 0 0)))).map (·.status.last) = some 0x00 ∧
    (nextState (exec (.nextb 1) (engine (v11At 0 0)))).map (·.status.last) = some 0x04 ∧
    (nextState (exec (.tell 0) (engine (v11At 0 0)))).map (·.status.last) = some 0x00 ∧
    (engine (v11At 0 0)).slots[(Instr.tell 0).slot.toNat]? = some (some (v11At 0 0)) ∧ (engine (v11At 0 0)).valid 0 = true ∧
    (engine (v11At 0 0)).slots[(Instr.nextb 1).slot.toNat]? = some none := by decide +kernel

theorem witness_ExhaustedEngineGoesOn :
    ∃ t, step { holding [] with status := ⟨0x05, true⟩, port := [.byte 0 1] } = .next t ∧ t.status.exh = true := ⟨_, rfl, rfl⟩

/-- A slot two blocks before its last counter value, and a sequence that ends on it. -/
theorem witness_CounterCountsTheBlocksTaken :
    (engine (v11At 0xfffffffd 0xffffffff)).slots[(0 : BitVec 8).toNat]? = some (some (v11At 0xfffffffd 0xffffffff)) ∧
    (∀ key nonce, Instr.create 0 key nonce ∉ [.nextb 0, .tell 0, .nextw 0]) ∧
    (∀ c, Instr.seek 0 c ∉ [.nextb 0, .tell 0, .nextw 0]) ∧
    (blockCounter (v11At 0xfffffffd 0xffffffff)).toNat +
      (List.count (.nextb 0) [Instr.nextb 0, .tell 0, .nextw 0] + List.count (.nextw 0) [Instr.nextb 0, .tell 0, .nextw 0]) <
        2 ^ 64 := by
  refine ⟨by decide, fun _ _ h => ?_, fun _ h => ?_, by decide +kernel⟩ <;> simp at h

/-- P4: two slots of one engine driven in turn, as the two runs of the statement, which end without a fault. -/
theorem witness_EqualContextsGiveEqualBlocks :
    let s₂ := { State.reset with slots := [some (createWords (upTo 32 ++ upTo 8)), none] }
    let is₂ := [Instr.nextb 0, .nextw 1, .nextw 0, .nextb 1]
    let is₁ := .create 1 (upTo 32) (upTo 8) :: is₂
    ((0 : BitVec 8).toNat < State.reset.nctx ∧ (1 : BitVec 8).toNat < s₂.nctx ∧ (upTo 32).length = 32 ∧ (upTo 8).length = 8 ∧
      State.reset.counterAccess = s₂.counterAccess) ∧
    (∀ k n, Instr.create 0 k n ∉ is₁) ∧ (∀ k n, Instr.create 1 k n ∉ is₂) ∧
    is₁.filterMap (drivesSlot 0) = is₂.filterMap (drivesSlot 1) ∧
    (nextState (runInstrs (.create 0 (upTo 32) (upTo 8) :: is₁) State.reset)).map (·.status.exh) = some false ∧
    (nextState (runInstrs (.create 1 (upTo 32) (upTo 8) :: is₂) s₂)).map (·.status.exh) = some false := by
  refine ⟨by decide +kernel, fun _ _ h => ?_, fun _ _ h => ?_, by decide +kernel, by decide +kernel, by decide +kernel⟩ <;> simp at h

/-- The ends of the range of NCTX. -/
theorem witness_ResetStateIsWellFormed :
    (Params.mk 1 false).valid = true ∧ (Params.mk 256 true).valid = true ∧ (Params.mk 0 true).valid = false ∧
    (Params.mk 257 true).valid = false := by decide

theorem witness_EveryStepKeepsTheEngineWellFormed :
    EngineInv (holding [2, 0, 0, 0]) ∧ (nextState (step (holding [2, 0, 0, 0]))).isSome = true :=
  ⟨witness_engine_inv, by decide +kernel⟩

theorem witness_ExecutionEmptiesTheCommandBuffer :
    EngineInv (holding [2, 0, 0, 0]) ∧ (∀ es, (holding [2, 0, 0, 0]).port ≠ .reset :: es) ∧
    decode (holding [2, 0, 0, 0]).cmdbuf = .command ⟨2, 0, 0, 0, []⟩ 4 :=
  ⟨witness_engine_inv, fun _ => List.cons_ne_nil _ _ ∘ Eq.symm, by decide⟩

theorem witness_CommandsCannotSeeOtherSlots : 1 ≠ (Instr.nextb 0).slot.toNat := by decide

theorem witness_RepeatingCreateSeekOrTellChangesNothing :
    (∀ slot, Instr.tell 0 ≠ .nextb slot) ∧ ∀ slot, Instr.tell 0 ≠ .nextw slot := by
  refine ⟨fun _ h => ?_, fun _ h => ?_⟩ <;> cases h

end Sys2Proof.Tests
end

section
/-! STATUS as a register and reset (spec/10_state.md R27, R35). -/

namespace Sys2Proof.Machine

/-- Each bit of STATUS (R27): a bit of LAST, which has none from 8 on, or EXH at bit 8. -/
theorem Status.word_getLsbD (st : Status) (k : Nat) :
    st.word.getLsbD k = (st.last.getLsbD k || (decide (k = 8) && st.exh)) := by
  have last_bit : (st.last.setWidth 32).getLsbD k = st.last.getLsbD k := by
    have last_lt : st.last.getLsbD k = true → k < 32 := fun h => (BitVec.lt_of_getLsbD h).trans (by decide)
    simpa using last_lt
  have exh_bit : (0x100 : Word).getLsbD k = decide (k = 8) := by
    have h8 : (0x100 : Word) = BitVec.twoPow 32 8 := by decide
    rw [h8, BitVec.getLsbD_twoPow]
    simp [eq_comm]
  rw [Status.word, BitVec.getLsbD_or, last_bit]
  cases st.exh with
  | false => simp
  | true => rw [if_pos rfl, exh_bit, Bool.and_true]

/-- LAST stands in bits [7:0] of STATUS (R27). -/
@[simp] theorem Status.word_last (st : Status) : st.word.extractLsb' 0 8 = st.last := by
  apply BitVec.eq_of_getLsbD_eq
  intro k hk
  have h8 : k ≠ 8 := by omega
  simp [Status.word_getLsbD, hk, h8]

/-- EXH is bit [8] of STATUS (R27). -/
theorem Status.word_exh (st : Status) : st.word.getLsbD 8 = st.exh := by
  have last_none : st.last.getLsbD 8 = false := BitVec.getLsbD_of_ge _ _ le_rfl
  rw [Status.word_getLsbD, last_none]
  simp

/-- Bits [31:9] of STATUS read 0 (R27). -/
@[simp] theorem Status.word_high (st : Status) : st.word.extractLsb' 9 23 = 0 := by
  apply BitVec.eq_of_getLsbD_eq
  intro k hk
  have last_none : st.last.getLsbD (9 + k) = false := BitVec.getLsbD_of_ge _ _ (by omega)
  have h8 : 9 + k ≠ 8 := by omega
  simp [Status.word_getLsbD, last_none, h8]

/-- Settles O1: the three parts of the register, one lemma each. -/
theorem statusWordHoldsLastExhAndZeros : Obligations.StatusWordHoldsLastExhAndZeros :=
  fun st => ⟨st.word_last, st.word_exh, st.word_high⟩

/-- The valid bit (R23) is set exactly where the slot list holds words. -/
theorem State.valid_iff (s : State) (k : Nat) : s.valid k = true ↔ ∃ w, s.slots[k]? = some (some w) := by
  unfold State.valid
  split <;> simp_all

/-- A slot that holds no words is not valid. -/
theorem State.valid_of_none (s : State) (k : Nat) (h : s.slots[k]? = some none) : s.valid k = false := by
  simp [State.valid, h]

/-- Settles O2: every slot of the replicated list is `none`, whatever its length. -/
theorem resetLeavesEverySlotInvalid : Obligations.ResetLeavesEverySlotInvalid := by
  intro p
  have slots_none : ∀ k < p.nctx, (State.resetWith p).slots[k]? = some none := by
    intro k hk
    simp [hk]
  refine ⟨?_, fun k hk => ⟨slots_none k hk, State.valid_of_none _ k (slots_none k hk)⟩, status_word_reset, rfl⟩
  simp [State.params]

/-- The range of the parameters (R8). -/
theorem params_valid_iff (p : Params) : p.valid = true ↔ 1 ≤ p.nctx ∧ p.nctx ≤ 256 := by
  simp [Params.valid]

/-- Reset with parameters in their range meets every clause: no slot is valid, and nothing has been received or sent. -/
theorem EngineInv.resetWith (p : Params) (hp : p.valid = true) : EngineInv (State.resetWith p) where
  nctx_range := by simpa using (params_valid_iff p).mp hp
  sigma w hw := by simp at hw
  last_code := by simp
  one_command := by simp [atMostOneCommand, decode_short]
  responses r hr := by simp at hr

/-- Settles O42: `Config.params` is in the range. -/
theorem resetStateIsWellFormed : Obligations.ResetStateIsWellFormed :=
  ⟨EngineInv.resetWith, EngineInv.resetWith _ (by decide)⟩

end Sys2Proof.Machine
end

section
/-! The words of a context: what the counter's writers leave, and when the counter is at its end (R26, R33, R155). -/

namespace Sys2Proof.Machine

/-- `w'` differs from `w` at most in the counter words 12 and 13 (R26). -/
def SameButCounter (w w' : Block) : Prop := ∀ j : Fin 16, j ≠ 12 → j ≠ 13 → w'[j] = w[j]

theorem sameButCounter_refl (w : Block) : SameButCounter w w := fun _ _ _ => rfl

theorem SameButCounter.set_low {w w' : Block} (h : SameButCounter w w') (a : Word) : SameButCounter w (w'.set 12 a) := by
  intro j h12 h13
  have hj : 12 ≠ j.val := fun e => h12 (Fin.ext e.symm)
  simpa [Vector.getElem_set, hj] using h j h12 h13

theorem SameButCounter.set_high {w w' : Block} (h : SameButCounter w w') (a : Word) : SameButCounter w (w'.set 13 a) := by
  intro j h12 h13
  have hj : 13 ≠ j.val := fun e => h13 (Fin.ext e.symm)
  simpa [Vector.getElem_set, hj] using h j h12 h13

theorem sameButCounter_setCounter (w : Block) (c : DWord) : SameButCounter w (setCounter w c) :=
  ((sameButCounter_refl w).set_low _).set_high _

theorem sameButCounter_drawCounter (w : Block) (d : Nat) : SameButCounter w (drawCounter w d) :=
  ((sameButCounter_refl w).set_low _).set_high _

theorem sameButCounter_incr {w w' : Block} (h : incr w = some w') : SameButCounter w w' := by
  unfold incr at h
  split at h
  · cases h
  · split at h
    · cases h
      exact ((sameButCounter_refl w).set_low _).set_high _
    · cases h
      exact (sameButCounter_refl w).set_low _

/-- The constants stand in words 0 to 3, which the counter's writers leave. -/
theorem SameButCounter.holdsSigma {w w' : Block} (h : SameButCounter w w') (hw : holdsSigma w = true) :
    holdsSigma w' = true := by
  have h0 : w'[0] = w[0] := h 0 (by decide) (by decide)
  have h1 : w'[1] = w[1] := h 1 (by decide) (by decide)
  have h2 : w'[2] = w[2] := h 2 (by decide) (by decide)
  have h3 : w'[3] = w[3] := h 3 (by decide) (by decide)
  simpa only [Machine.holdsSigma, h0, h1, h2, h3] using hw

/-- CREATE writes the constants (R104). -/
theorem holdsSigma_createWords (b : List Byte) : holdsSigma (createWords b) = true := by
  simp [holdsSigma, createWords]

/-- The counter's value from its two words (R26). -/
theorem blockCounter_toNat (w : Block) : (blockCounter w).toNat = 2 ^ 32 * w[13].toNat + w[12].toNat := by
  have h12 := w[12].isLt
  rw [blockCounter, BitVec.toNat_append, ← Nat.shiftLeft_add_eq_or_of_lt h12, Nat.shiftLeft_eq, Nat.mul_comm]

/-- The counter has no advance exactly at its last value (R155). -/
theorem incr_eq_none_iff (w : Block) : incr w = none ↔ (blockCounter w).toNat = 2 ^ 64 - 1 := by
  have h12 := w[12].isLt
  have h13 := w[13].isLt
  have ends : incr w = none ↔ w[12] = 0xFFFFFFFF ∧ w[13] = 0xFFFFFFFF := by
    unfold incr
    split
    · exact iff_of_true rfl ‹_›
    · split <;> exact iff_of_false nofun ‹_›
  have last_iff : ∀ v : Word, v = 0xFFFFFFFF ↔ v.toNat = 2 ^ 32 - 1 := fun v => BitVec.toNat_inj.symm
  rw [ends, blockCounter_toNat, last_iff, last_iff]
  omega

end Sys2Proof.Machine
end

section
/-! One command: its next state by cases, and from that what it keeps and what it writes (spec/10_state.md R24, R29). -/

namespace Sys2Proof.Machine

/-- `exec_next` (Laws/Meanings.lean) as a relation, to split cases on: the next states a command can answer. -/
inductive NextState (i : Instr) (s : State) : State → Prop where
  /-- An error (R226). -/
  | failed (e : ResultCode) (ok : e ≠ .ok) (exhausted : e ≠ .counterExhausted) : NextState i s (s.answered e.code .empty)
  /-- A CREATE that succeeds (R101). -/
  | created (key nonce : List Byte) (hi : i = .create i.slot key nonce) (hs : i.slot.toNat < s.nctx)
      (hk : key.length = 32) (hn : nonce.length = 8) :
      NextState i s (State.answered
        { s with slots := s.slots.set i.slot.toNat (some (createWords (key ++ nonce))) } 0x00 .empty)
  /-- A TELL that succeeds (R194). -/
  | told (w : Block) (hi : i = .tell i.slot) (hw : s.slots[i.slot.toNat]? = some (some w)) :
      NextState i s (s.answered 0x00 (.words [w[12], w[13]]))
  /-- A SEEK that succeeds (R193). -/
  | sought (w : Block) (c : DWord) (hi : i = .seek i.slot c) (hw : s.slots[i.slot.toNat]? = some (some w)) :
      NextState i s (State.answered { s with slots := s.slots.set i.slot.toNat (some (setCounter w c)) } 0x00 .empty)
  /-- A NEXTB or NEXTW below the last counter value (R191, R192). -/
  | advanced (w w' z : Block) (p : Payload)
      (hi : (i = .nextb i.slot ∧ p = .bytes (serialize z)) ∨ (i = .nextw i.slot ∧ p = .words z.toList))
      (hw : s.slots[i.slot.toNat]? = some (some w)) (hc : incr w = some w') :
      NextState i s (State.answered { s with x := z, slots := s.slots.set i.slot.toNat (some w') } 0x00 p)
  /-- A NEXTB or NEXTW at the last counter value (R228). -/
  | exhausted (w z : Block) (p : Payload)
      (hi : (i = .nextb i.slot ∧ p = drawBytes s.draws) ∨ (i = .nextw i.slot ∧ p = drawWords s.draws))
      (hw : s.slots[i.slot.toNat]? = some (some w)) (hc : incr w = none) :
      NextState i s (State.answered
        { s with
          slots := s.slots.set i.slot.toNat (some (drawCounter w s.draws)), status := { s.status with exh := true }, x := z,
          draws := s.draws + 66 } 0x05 p)

/-- Every command answers a next state, and it is one of `NextState`. -/
theorem exec_answers (i : Instr) (s : State) : ∃ t, exec i s = .next t ∧ NextState i s t := by
  obtain ⟨e, hok, hex, h⟩ | ⟨key, nonce, hi, hs, hk, hn, h⟩ | ⟨w, hi, hw, h⟩ | ⟨w, c, hi, hw, h⟩ |
    ⟨w, w', z, p, hi, hw, _, hc, h⟩ | ⟨w, z, p, hi, hw, _, hc, h⟩ := exec_next i s
  · exact ⟨_, h, .failed e hok hex⟩
  · exact ⟨_, h, .created key nonce hi hs hk hn⟩
  · exact ⟨_, h, .told w hi hw⟩
  · exact ⟨_, h, .sought w c hi hw⟩
  · exact ⟨_, h, .advanced w w' z p hi hw hc⟩
  · rw [← status_word_exhausted] at h
    exact ⟨_, h, .exhausted w z p hi hw hc⟩

theorem nextState_of_exec {i : Instr} {s t : State} (h : exec i s = .next t) : NextState i s t := by
  obtain ⟨u, hu, hnext⟩ := exec_answers i s
  rw [h] at hu
  cases hu
  exact hnext

/-- The four errors a command can raise have the codes 0x01 to 0x04 (R220). -/
theorem ResultCode.code_of_error {e : ResultCode} (ok : e ≠ .ok) (exhausted : e ≠ .counterExhausted) :
    e.code ∈ ([0x01, 0x02, 0x03, 0x04] : List (BitVec 8)) := by
  cases e with
  | ok => contradiction
  | counterExhausted => contradiction
  | invalidInputLength => decide
  | illegalCommand => decide
  | slotOutOfRange => decide
  | noState => decide

/-- The codes of R220 are the numbers up to 5. -/
theorem ResultCode.code_le (e : ResultCode) : e.code.toNat ≤ 5 := by
  cases e <;> decide

section
variable {i : Instr} {s t : State} (h : NextState i s t)
include h

/-- No command writes the parameters, CMDBUF or what is outside the engine. -/
theorem NextState.keeps_surroundings :
    t.nctx = s.nctx ∧ t.counterAccess = s.counterAccess ∧ t.cmdbuf = s.cmdbuf ∧ t.port = s.port ∧ t.client = s.client := by
  cases h <;> simp [State.nctx]

/-- A command writes no slot; or the one it names, as a CREATE in range with a key and nonce of the right lengths, or as another
command that found it valid and leaves all words but the counter's. -/
theorem NextState.slots_cases :
    t.slots = s.slots ∨
    (∃ w', t.slots = s.slots.set i.slot.toNat (some w') ∧ i.slot.toNat < s.nctx ∧
      ∃ key nonce, i = .create i.slot key nonce ∧ key.length = 32 ∧ nonce.length = 8) ∨
    ∃ w w', t.slots = s.slots.set i.slot.toNat (some w') ∧ s.slots[i.slot.toNat]? = some (some w) ∧
      SameButCounter w w' := by
  cases h with
  | failed e ok exhausted => exact .inl rfl
  | created key nonce hi hs hk hn => exact .inr (.inl ⟨_, rfl, hs, key, nonce, hi, hk, hn⟩)
  | told w hi hw => exact .inl rfl
  | sought w c hi hw => exact .inr (.inr ⟨w, _, rfl, hw, sameButCounter_setCounter w c⟩)
  | advanced w w' z p hi hw hc => exact .inr (.inr ⟨w, w', rfl, hw, sameButCounter_incr hc⟩)
  | exhausted w z p hi hw hc => exact .inr (.inr ⟨w, _, rfl, hw, sameButCounter_drawCounter w _⟩)

/-- A command leaves EXH and the draws and ends with another code than 0x05; or it is a NEXTB or NEXTW at the last counter value,
and sets EXH (R228, R229). -/
theorem NextState.exh_cases :
    (t.status.exh = s.status.exh ∧ t.draws = s.draws ∧ t.status.last ≠ 0x05) ∨
    (t.status.exh = true ∧ t.status.last = 0x05 ∧ (i = .nextb i.slot ∨ i = .nextw i.slot) ∧
      ∃ w, s.slots[i.slot.toNat]? = some (some w) ∧ (blockCounter w).toNat = 2 ^ 64 - 1) := by
  cases h with
  | failed e ok exhausted =>
    have code_ne : ∀ c ∈ ([0x01, 0x02, 0x03, 0x04] : List (BitVec 8)), c ≠ 0x05 := by decide
    exact .inl ⟨rfl, rfl, code_ne _ (ResultCode.code_of_error ok exhausted)⟩
  | created key nonce hi hs hk hn => exact .inl ⟨rfl, rfl, by simp⟩
  | told w hi hw => exact .inl ⟨rfl, rfl, by simp⟩
  | sought w c hi hw => exact .inl ⟨rfl, rfl, by simp⟩
  | advanced w w' z p hi hw hc => exact .inl ⟨rfl, rfl, by simp⟩
  | exhausted w z p hi hw hc =>
    exact .inr ⟨rfl, rfl, hi.imp And.left And.left, w, hw, (incr_eq_none_iff w).mp hc⟩

/-- Only NEXTB and NEXTW write the working buffer (R24, R25). -/
theorem NextState.x_cases : t.x = s.x ∨ i = .nextb i.slot ∨ i = .nextw i.slot := by
  cases h with
  | failed e ok exhausted => exact .inl rfl
  | created key nonce hi hs hk hn => exact .inl rfl
  | told w hi hw => exact .inl rfl
  | sought w c hi hw => exact .inl rfl
  | advanced w w' z p hi hw hc => exact .inr (hi.imp And.left And.left)
  | exhausted w z p hi hw hc => exact .inr (hi.imp And.left And.left)

/-- Another code than 0x00 and 0x05 is an error, which writes LAST alone (R226). -/
theorem NextState.eq_answered_of_error (h0 : t.status.last ≠ 0x00) (h5 : t.status.last ≠ 0x05) :
    t = s.answered t.status.last .empty := by
  cases h with
  | failed e ok exhausted => rfl
  | created key nonce hi hs hk hn => exact absurd rfl h0
  | told w hi hw => exact absurd rfl h0
  | sought w c hi hw => exact absurd rfl h0
  | advanced w w' z p hi hw hc => exact absurd rfl h0
  | exhausted w z p hi hw hc => exact absurd rfl h5

/-- TELL writes no slot (R194). -/
theorem NextState.tell_keeps_slots {slot : BitVec 8} (hi : i = .tell slot) : t.slots = s.slots := by
  subst hi
  cases h with
  | failed e ok exhausted => rfl
  | created key nonce hi hs hk hn => cases hi
  | told w hi hw => rfl
  | sought w c hi hw => cases hi
  | advanced w w' z p hi hw hc => obtain ⟨hi, _⟩ | ⟨hi, _⟩ := hi <;> cases hi
  | exhausted w z p hi hw hc => obtain ⟨hi, _⟩ | ⟨hi, _⟩ := hi <;> cases hi

/-- LAST takes one of the six codes (R27). -/
theorem NextState.last_le : t.status.last.toNat ≤ 5 := by
  cases h with
  | failed e ok exhausted => exact e.code_le
  | created key nonce hi hs hk hn => simp
  | told w hi hw => simp
  | sought w c hi hw => simp
  | advanced w w' z p hi hw hc => simp
  | exhausted w z p hi hw hc => simp

/-- No command writes another slot than the one it names (R24). -/
theorem NextState.other_slots {k : Nat} (hk : k ≠ i.slot.toNat) : t.slots[k]? = s.slots[k]? := by
  obtain hs | ⟨w', hs, _⟩ | ⟨w, w', hs, _⟩ := h.slots_cases
  · rw [hs]
  · rw [hs, List.getElem?_set_ne hk.symm]
  · rw [hs, List.getElem?_set_ne hk.symm]

/-- A valid slot stays valid (R24). -/
theorem NextState.keeps_valid {k : Nat} (hv : s.valid k = true) : t.valid k = true := by
  rw [State.valid_iff] at hv ⊢
  obtain ⟨w, hw⟩ := hv
  by_cases hk : k = i.slot.toNat
  · have hlt : i.slot.toNat < s.slots.length := hk ▸ s.lt_nctx_of_slot k _ hw
    subst hk
    obtain hs | ⟨w', hs, _⟩ | ⟨_, w', hs, _⟩ := h.slots_cases
    · exact ⟨w, by rw [hs, hw]⟩
    · exact ⟨w', by rw [hs, List.getElem?_set_self hlt]⟩
    · exact ⟨w', by rw [hs, List.getElem?_set_self hlt]⟩
  · exact ⟨w, by rw [h.other_slots hk, hw]⟩

/-- No command but CREATE makes an invalid slot valid (R24). -/
theorem NextState.keeps_invalid (hi : ∀ slot key nonce, i ≠ .create slot key nonce)
    (hn : s.slots[i.slot.toNat]? = some none) : t.slots[i.slot.toNat]? = some none := by
  obtain hs | ⟨_, _, _, key, nonce, hc, _⟩ | ⟨w, _, _, hw, _⟩ := h.slots_cases
  · rw [hs, hn]
  · exact absurd hc (hi _ _ _)
  · rw [hn] at hw
    cases hw

/-- No command but CREATE writes other words of a valid slot than the counter's (R24). -/
theorem NextState.keeps_words (hi : ∀ slot key nonce, i ≠ .create slot key nonce) {w : Block}
    (hw : s.slots[i.slot.toNat]? = some (some w)) :
    ∃ w', t.slots[i.slot.toNat]? = some (some w') ∧ SameButCounter w w' := by
  obtain hs | ⟨_, _, _, key, nonce, hc, _⟩ | ⟨v, w', hs, hv, same⟩ := h.slots_cases
  · exact ⟨w, by rw [hs, hw], sameButCounter_refl w⟩
  · exact absurd hc (hi _ _ _)
  · rw [hw] at hv
    cases hv
    exact ⟨w', by rw [hs, List.getElem?_set_self (s.lt_nctx_of_slot _ _ hw)], same⟩

/-- A slot that a command makes valid is one that a CREATE has succeeded on (R29). -/
theorem NextState.valid_cases {k : Nat} (hv : t.valid k = true) :
    s.valid k = true ∨ (k = i.slot.toNat ∧ k < s.nctx ∧
      ∃ key nonce, i = .create i.slot key nonce ∧ key.length = 32 ∧ nonce.length = 8) := by
  by_cases hk : k = i.slot.toNat
  · subst hk
    obtain hs | ⟨_, _, hlt, hc⟩ | ⟨w, _, _, hw, _⟩ := h.slots_cases
    · exact .inl (by simpa only [State.valid, hs] using hv)
    · exact .inr ⟨rfl, hlt, hc⟩
    · exact .inl ((s.valid_iff _).mpr ⟨w, hw⟩)
  · exact .inl (by simpa only [State.valid, h.other_slots hk] using hv)

end

/-- Settles O36: each clause is a lemma about `NextState`. -/
theorem commandsWriteOnlyWhatTheirRowNames : Obligations.CommandsWriteOnlyWhatTheirRowNames := by
  intro i s t hexec
  have h := nextState_of_exec hexec
  refine ⟨h.keeps_surroundings, fun k => h.other_slots, fun h5 => ?exh, fun h0 h5 => ?error, fun hb hw => ?x,
    fun hb hw => ?exhOfOther, fun slot => h.tell_keeps_slots, fun k => h.keeps_valid, h.keeps_invalid,
    fun hi w => h.keeps_words hi⟩
  case exh =>
    obtain ⟨hexh, hdraws, _⟩ | ⟨_, hlast, _⟩ := h.exh_cases
    · exact ⟨hexh, hdraws⟩
    · exact absurd hlast h5
  case error =>
    rw [h.eq_answered_of_error h0 h5]
    exact ⟨rfl, rfl⟩
  case x =>
    obtain hx | hi | hi := h.x_cases
    · exact hx
    · exact absurd hi (hb _)
    · exact absurd hi (hw _)
  case exhOfOther =>
    obtain ⟨hexh, _⟩ | ⟨_, _, hi | hi, _⟩ := h.exh_cases
    · exact hexh
    · exact absurd hi (hb _)
    · exact absurd hi (hw _)

/-- CREATE in range with a 32-byte key and an 8-byte nonce succeeds, and the slot is valid. -/
theorem exec_create_valid {s : State} {slot : BitVec 8} {key nonce : List Byte} (hs : slot.toNat < s.nctx)
    (hk : key.length = 32) (hn : nonce.length = 8) :
    ∃ t, exec (.create slot key nonce) s = .next t ∧ t.valid slot.toNat = true := by
  obtain ⟨hge, _⟩ | ⟨_, hlen, _⟩ | ⟨_, _, _, h⟩ := execCreate_cases s slot key nonce
  · omega
  · omega
  · exact ⟨_, h, (State.valid_iff _ _).mpr ⟨_, List.getElem?_set_self hs⟩⟩

theorem exec_nextb (slot : BitVec 8) (s : State) :
    exec (.nextb slot) s = runBlock (fun out => .bytes (serialize out)) drawBytes slot s := rfl

theorem exec_nextw (slot : BitVec 8) (s : State) :
    exec (.nextw slot) s = runBlock (fun out => .words out.toList) drawWords slot s := rfl

/-- The block transform at the last counter value sets EXH (R228). -/
theorem runBlock_exhausted_exh {s : State} {slot : BitVec 8} {w : Block} (form : Block → Payload) (drawn : Nat → Payload)
    (hw : s.slots[slot.toNat]? = some (some w)) (hc : (blockCounter w).toNat = 2 ^ 64 - 1) :
    ∃ t, runBlock form drawn slot s = .next t ∧ t.status.exh = true := by
  rw [runBlock_exhausted s slot form drawn w hw ((incr_eq_none_iff w).mpr hc), raiseCounterExhausted_eq]
  generalize blockWords w = z
  exact ⟨_, rfl, rfl⟩

/-- NEXTB and NEXTW at the last counter value set EXH (R228). -/
theorem exec_exhausted_exh {i : Instr} {s : State} {slot : BitVec 8} {w : Block} (hi : i = .nextb slot ∨ i = .nextw slot)
    (hw : s.slots[slot.toNat]? = some (some w)) (hc : (blockCounter w).toNat = 2 ^ 64 - 1) :
    ∃ t, exec i s = .next t ∧ t.status.exh = true := by
  obtain rfl | rfl := hi
  · rw [exec_nextb]
    exact runBlock_exhausted_exh _ _ hw hc
  · rw [exec_nextw]
    exact runBlock_exhausted_exh _ _ hw hc

/-- Settles O37: the two flags change only in the cases named (`NextState.exh_cases`, `NextState.valid_cases`), and in those they are
set. -/
theorem flagsAreWrittenOnlyByTheirCommands : Obligations.FlagsAreWrittenOnlyByTheirCommands := by
  intro i s
  obtain ⟨t, hexec, h⟩ := exec_answers i s
  have next_unique : ∀ {u}, exec i s = .next u → u = t := fun hu => Host.Outcome.next.inj (hu.symm.trans hexec)
  refine ⟨t, hexec, h.last_le, ⟨fun ht => ?exhOnly, ?exhSet⟩, fun k => ⟨h.valid_cases, ?validSet⟩⟩
  case exhOnly =>
    obtain ⟨hexh, _⟩ | ⟨_, _, hcause⟩ := h.exh_cases
    · exact .inl (hexh ▸ ht)
    · exact .inr hcause
  case exhSet =>
    rintro (hs | ⟨hi, w, hw, hc⟩)
    · obtain ⟨hexh, _⟩ | ⟨hexh, _⟩ := h.exh_cases
      · rw [hexh, hs]
      · exact hexh
    · obtain ⟨u, hu, hexh⟩ := exec_exhausted_exh hi hw hc
      rw [← next_unique hu, hexh]
  case validSet =>
    rintro (hs | ⟨rfl, hlt, key, nonce, hi, hk, hn⟩)
    · exact h.keeps_valid hs
    · obtain ⟨u, hu, hv⟩ := exec_create_valid hlt hk hn
      rw [← hi] at hu
      rw [← next_unique hu, hv]

/-- Two answers are next states that differ at most in the working buffer. -/
def SameButX (r r' : Result) : Prop := ∃ t x', r = .next t ∧ r' = .next { t with x := x' }

section
variable (s : State) (x : Block)

theorem raiseError_sameButX (e : ResultCode) : SameButX (raiseError e s) (raiseError e { s with x := x }) :=
  ⟨_, x, rfl, rfl⟩

theorem complete_sameButX (p : Payload) : SameButX (complete p s) (complete p { s with x := x }) :=
  ⟨_, x, rfl, rfl⟩

theorem execCreate_sameButX (slot : BitVec 8) (key nonce : List Byte) :
    SameButX (execCreate slot key nonce s) (execCreate slot key nonce { s with x := x }) := by
  have same_nctx : State.nctx { s with x := x } = s.nctx := rfl
  simp only [execCreate, same_nctx]
  split
  · exact raiseError_sameButX s x _
  · split
    · exact raiseError_sameButX s x _
    · exact complete_sameButX (s.setContext slot _) x _

theorem execSeek_sameButX (slot : BitVec 8) (c : DWord) :
    SameButX (execSeek slot c s) (execSeek slot c { s with x := x }) := by
  have same_context : State.context { s with x := x } slot = s.context slot := rfl
  simp only [execSeek, same_context]
  split
  · exact raiseError_sameButX s x _
  · cases s.context slot with
    | error e => exact raiseError_sameButX s x e
    | ok w => exact complete_sameButX (s.setContext slot _) x _

theorem execTell_sameButX (slot : BitVec 8) : SameButX (execTell slot s) (execTell slot { s with x := x }) := by
  have same_context : State.context { s with x := x } slot = s.context slot := rfl
  simp only [execTell, same_context]
  split
  · exact raiseError_sameButX s x _
  · cases s.context slot with
    | error e => exact raiseError_sameButX s x e
    | ok w => exact complete_sameButX s x _

/-- Where a block command computes a block, it overwrites all of `X`. -/
theorem runBlock_sameButX (form : Block → Payload) (drawn : Nat → Payload) (slot : BitVec 8) :
    SameButX (runBlock form drawn slot s) (runBlock form drawn slot { s with x := x }) := by
  have same_context : State.context { s with x := x } slot = s.context slot := rfl
  simp only [runBlock, same_context]
  cases s.context slot with
  | error e => exact raiseError_sameButX s x e
  | ok w =>
    dsimp only
    generalize blockWords w = z
    cases incr w with
    | none => exact ⟨_, z, rfl, rfl⟩
    | some w' => exact ⟨_, z, rfl, rfl⟩

end

/-- Settles O44: an error and a command without a block leave `X`, and a block overwrites it. -/
theorem workingBufferIsNeverObservable : Obligations.WorkingBufferIsNeverObservable := by
  intro i s x
  show SameButX (exec i s) (exec i { s with x := x })
  cases i with
  | create slot key nonce => exact execCreate_sameButX s x slot key nonce
  | nextb slot =>
    rw [exec_nextb, exec_nextb]
    exact runBlock_sameButX s x _ _ slot
  | nextw slot =>
    rw [exec_nextw, exec_nextw]
    exact runBlock_sameButX s x _ _ slot
  | seek slot c => exact execSeek_sameButX s x slot c
  | tell slot => exact execTell_sameButX s x slot

end Sys2Proof.Machine
end

section
/-! The step: what executes when, what every step keeps, and the invariant of reachable states (spec/10_state.md R31,
spec/20_memory.md R54). -/

namespace Sys2Proof.Machine

/-! ### Which command a step executes -/

/-- While a whole command is in CMDBUF and no reset is due, the step executes it. -/
theorem step_of_command {s : State} {c : RawCommand} {len : Nat} (hp : ∀ es, s.port ≠ .reset :: es)
    (hd : decode s.cmdbuf = .command c len) : step s = execCommand c { s with cmdbuf := s.cmdbuf.drop len } := by
  obtain ⟨es, hr, _⟩ | ⟨_, c', len', hd', h⟩ | ⟨_, hm, _⟩ := machineStep_cases s
  · exact absurd hr (hp es)
  · rw [hd] at hd'
    cases hd'
    exact h
  · rw [hd] at hm
    cases hm

/-- While no whole command is in CMDBUF and no reset is due, the step waits for the port. -/
theorem step_of_needMore {s : State} (hp : ∀ es, s.port ≠ .reset :: es) (hd : decode s.cmdbuf = .needMore) :
    step s = awaitBytes s := by
  show machineStep s = awaitBytes s
  unfold machineStep
  split
  · exact absurd ‹_› (hp _)
  · simp only [engineTurn, hd]

/-- The execution of a command the decoder reads an instruction from. -/
theorem execCommand_of_classify {c : RawCommand} {i : Instr} (hc : classify c = .ok i) (s : State) :
    execCommand c s = exec i s := by
  simp only [execCommand, hc]

/-- A whole command answers a next state: that of its instruction, or IllegalCommand. -/
theorem execCommand_answers (c : RawCommand) (s : State) :
    ∃ t, execCommand c s = .next t ∧ ((∃ i, NextState i s t) ∨ t = s.answered 0x02 .empty) := by
  obtain ⟨i, _, h⟩ | ⟨_, _, h⟩ := execCommand_cases c s
  · obtain ⟨t, ht, hnext⟩ := exec_answers i s
    exact ⟨t, h.trans ht, .inl ⟨i, hnext⟩⟩
  · exact ⟨_, h, .inr rfl⟩

theorem execCommand_next_cases {c : RawCommand} {s t : State} (h : execCommand c s = .next t) :
    (∃ i, NextState i s t) ∨ t = s.answered 0x02 .empty := by
  obtain ⟨u, hu, hcases⟩ := execCommand_answers c s
  rw [h] at hu
  cases hu
  exact hcases

/-- No command, legal or not, writes the parameters or CMDBUF. -/
theorem execCommand_keeps {c : RawCommand} {s t : State} (h : execCommand c s = .next t) :
    t.params = s.params ∧ t.cmdbuf = s.cmdbuf := by
  obtain ⟨i, hnext⟩ | rfl := execCommand_next_cases h
  · obtain ⟨hn, ha, hb, _, _⟩ := hnext.keeps_surroundings
    exact ⟨by simp only [State.params, hn, ha], hb⟩
  · exact ⟨rfl, rfl⟩

/-- `machineStep_cases` (Laws/Ops.lean) for a step that answers a next state. -/
theorem step_next_cases {s t : State} (h : step s = .next t) :
    (∃ es, s.port = .reset :: es ∧ t = State.resetEvent { s with port := es }) ∨
    (∃ c len, decode s.cmdbuf = .command c len ∧ execCommand c { s with cmdbuf := s.cmdbuf.drop len } = .next t) ∨
    (∃ host b es, decode s.cmdbuf = .needMore ∧ t = State.acceptByte host b { s with port := es }) ∨
    ∃ es, t = { s with port := es } := by
  have h : machineStep s = .next t := h
  obtain ⟨es, hp, hm⟩ | ⟨_, c, len, hd, hm⟩ | ⟨_, hd, ⟨_, hm⟩ | ⟨host, b, es, _, hm⟩ | ⟨es, _, hm⟩⟩ :=
    machineStep_cases s <;> rw [h] at hm
  · cases hm
    exact .inl ⟨es, hp, rfl⟩
  · exact .inr (.inl ⟨c, len, hd, hm.symm⟩)
  · cases hm
  · cases hm
    exact .inr (.inr (.inl ⟨host, b, es, hd, rfl⟩))
  · cases hm
    exact .inr (.inr (.inr ⟨es, rfl⟩))

/-- Settles O4: a reset rebuilds the state from its own parameters, and nothing else writes them. -/
theorem noStepChangesTheParameters : Obligations.NoStepChangesTheParameters := by
  intro s t h
  obtain ⟨es, _, rfl⟩ | ⟨c, len, _, hexec⟩ | ⟨host, b, es, _, rfl⟩ | ⟨es, rfl⟩ := step_next_cases h
  · simp only [State.params, State.resetEvent_nctx, State.resetEvent_counterAccess]
    rfl
  · exact (execCommand_keeps hexec).1
  · rfl
  · rfl

/-- Settles O19: the step waits (`step_of_needMore`), and the port's next event decides. -/
theorem incompleteCommandWaits : Obligations.IncompleteCommandWaits := by
  intro s hd
  refine ⟨fun hp => ?_, fun h b es hp => ?_, fun es hp => ?_⟩
  · rw [step_of_needMore (by simp [hp]) hd, awaitBytes, hp]
  · rw [step_of_needMore (by simp [hp]) hd, awaitBytes, hp]
    rfl
  · rw [step_of_needMore (by simp [hp]) hd, awaitBytes, hp]

/-! ### CMDBUF holds at most one command -/

/-- A command whose bytes are all in the front part of a string is decoded from that part alone (R74). -/
theorem decode_of_append {b rest : List Byte} {c : RawCommand} {len : Nat} (h : decode (b ++ rest) = .command c len)
    (hl : len ≤ b.length) : decode b = .command c len := by
  have h4 : 4 ≤ len := (decode_len _ _ _ h).1
  obtain hshort | ⟨b0, b1, b2, b3, r, rfl⟩ := short_or_cons b
  · omega
  · obtain ⟨r', hr, hlen, _, ho⟩ := (decode_eq_command_iff _ _ _).mp h
    simp only [List.cons_append, List.cons.injEq] at hr
    obtain ⟨rfl, rfl, rfl, rfl, rfl⟩ := hr
    simp only [List.length_cons] at hl
    exact (decode_eq_command_iff _ _ _).mpr
      ⟨r, rfl, hlen, by omega, by rw [ho, List.take_append_of_le_length (by omega)]⟩

/-- Where CMDBUF holds at most one command, a whole command is all it holds (R31). -/
theorem len_eq_of_atMostOneCommand {b : List Byte} {c : RawCommand} {len : Nat} (h : atMostOneCommand b = true)
    (hd : decode b = .command c len) : len = b.length := by
  have h : decode b.dropLast = .needMore := by simpa [atMostOneCommand] using h
  obtain ⟨h4, hle⟩ := decode_len b c len hd
  have hne : b ≠ [] := by
    rintro rfl
    simp only [List.length_nil] at hle
    omega
  by_contra hlen
  have hd' : decode (b.dropLast ++ [b.getLast hne]) = .command c len := by rwa [List.dropLast_append_getLast hne]
  rw [decode_of_append hd' (by rw [List.length_dropLast]; omega)] at h
  cases h

/-- A byte taken while CMDBUF holds no whole command leaves at most one there. -/
theorem atMostOneCommand_append {b : List Byte} (h : decode b = .needMore) (x : Byte) :
    atMostOneCommand (b ++ [x]) = true := by
  simpa [atMostOneCommand] using h

theorem atMostOneCommand_nil : atMostOneCommand [] = true := by
  simp [atMostOneCommand, decode_short]

/-- In a state with the invariant, a command that executes leaves CMDBUF empty (R31). -/
theorem EngineInv.drop_cmdbuf {s : State} (hs : EngineInv s) {c : RawCommand} {len : Nat}
    (hd : decode s.cmdbuf = .command c len) : s.cmdbuf.drop len = [] :=
  List.drop_eq_nil_of_le (len_eq_of_atMostOneCommand hs.one_command hd).ge

/-- Settles O17: `step_of_command`, and `EngineInv.drop_cmdbuf` in a well-formed state. -/
theorem stepRunsTheDecodedInstruction : Obligations.StepRunsTheDecodedInstruction := by
  intro s c len i hp hd hc
  have hstep : step s = exec i { s with cmdbuf := s.cmdbuf.drop len } :=
    (step_of_command hp hd).trans (execCommand_of_classify hc _)
  exact ⟨hstep, fun hs => by rw [hstep, hs.drop_cmdbuf hd]⟩

/-- Settles O43: the command's length is that of CMDBUF, and no command writes what is left of it. -/
theorem executionEmptiesTheCommandBuffer : Obligations.ExecutionEmptiesTheCommandBuffer := by
  intro s c len hs hp hd
  obtain ⟨t, ht, _⟩ := execCommand_answers c { s with cmdbuf := s.cmdbuf.drop len }
  refine ⟨len_eq_of_atMostOneCommand hs.one_command hd, t, (step_of_command hp hd).trans ht, ?_⟩
  exact (execCommand_keeps ht).2.trans (hs.drop_cmdbuf hd)

/-! ### The command placed by `withFetchWord` -/

/-- The first word of a number's bytes is the number's low word (R52). -/
theorem unpack_leBytes (n v : Nat) (h : 0 + 3 < (leBytes n v).length) : unpack (leBytes n v) 0 h = BitVec.ofNat 32 v := by
  have hn : 4 ≤ n := by
    rw [leBytes_length] at h
    omega
  have hfour : (leBytes n v).take 4 = leBytes 4 v := by
    apply List.ext_getElem?
    intro k
    by_cases hk : k < 4
    · rw [List.getElem?_take_of_lt hk, leBytes_getElem? _ _ _ (hk.trans_le hn), leBytes_getElem? _ _ _ hk]
    · rw [List.getElem?_eq_none (by simp; omega), List.getElem?_eq_none (by simp; omega)]
  apply BitVec.eq_of_toNat_eq
  rw [← memRead_four, memRead, List.drop_zero, hfour, leNat_leBytes, BitVec.toNat_ofNat]
  rfl

theorem four_le_commandLength (cw : Word) : 4 ≤ commandLength cw := by
  unfold commandLength
  split
  · omega
  · split <;> omega

/-- The length a decoded command has is the one its command word announces (R74). -/
theorem decode_len_eq_commandLength {b : List Byte} {c : RawCommand} {len : Nat} (hd : decode b = .command c len)
    (h : 0 + 3 < b.length) : len = commandLength (unpack b 0 h) := by
  unfold decode at hd
  rw [dif_neg (by omega)] at hd
  dsimp only at hd
  split at hd
  · cases hd
  · cases hd
    rfl

/-- The bytes of a table word are as many as its command has. -/
theorem tableBytes_len {nbits w : Nat} {c : RawCommand} {len : Nat} (hd : decode (tableBytes nbits w) = .command c len) :
    len = (tableBytes nbits w).length := by
  have h4 := four_le_commandLength (BitVec.ofNat 32 (w % 2 ^ nbits))
  have hlong : 0 + 3 < (tableBytes nbits w).length := by
    rw [tableBytes, leBytes_length]
    omega
  rw [decode_len_eq_commandLength hd hlong]
  simp only [tableBytes, unpack_leBytes, leBytes_length]

/-- A table word that the decoder reads an instruction from is the bytes of a whole command. -/
theorem decodeTableWord_eq_some {nbits w : Nat} {i : Instr} (h : decodeTableWord nbits w = some i) :
    ∃ c, decode (tableBytes nbits w) = .command c (tableBytes nbits w).length ∧ classify c = .ok i := by
  unfold decodeTableWord at h
  split at h
  · cases h
  · next c len hd =>
    split at h
    · next j hc =>
      cases h
      exact ⟨c, tableBytes_len hd ▸ hd, hc⟩
    · cases h

/-- Once the resets at its head are dropped, a schedule does not start with one. -/
theorem dropWhile_isReset_ne (port es : List PortEvent) : port.dropWhile PortEvent.isReset ≠ .reset :: es := by
  intro h
  have head_not := List.head_dropWhile_not PortEvent.isReset (l := port) (by simp [h])
  simp [h, PortEvent.isReset] at head_not

/-- Settles O18: the placed bytes are exactly one command, and no reset is due. -/
theorem placedTableWordRunsNext : Obligations.PlacedTableWordRunsNext := by
  intro s nbits w i h
  obtain ⟨c, hd, hc⟩ := decodeTableWord_eq_some h
  have hp : ∀ es, (s.withFetchWord nbits w).port ≠ .reset :: es := dropWhile_isReset_ne s.port
  rw [step_of_command hp hd, execCommand_of_classify hc]
  simp [State.withFetchWord, State.loadCommand]

/-! ### The invariant of reachable states -/

/-- Whether a response with LAST at `last` may carry the payload (R54). -/
def Payload.fits (last : BitVec 8) : Payload → Prop
  | .empty => True
  | .bytes bs => bs.length = 64 ∧ (last = 0x00 ∨ last = 0x05)
  | .words ws => (ws.length = 16 ∧ (last = 0x00 ∨ last = 0x05)) ∨ (ws.length = 2 ∧ last = 0x00)

/-- The form of R54 for a response with the register's own word: the code is one of the six and the payload fits it. -/
theorem response_wellFormed (host : Nat) (st : Status) (p : Payload) (hl : st.last.toNat ≤ 5) (hp : p.fits st.last) :
    Response.wellFormed { host := host, status := st.word, payload := p } = true := by
  cases p with
  | empty => simp [Response.wellFormed, hl]
  | bytes bs => simpa [Response.wellFormed, Payload.fits, hl] using hp
  | words ws => simpa [Response.wellFormed, Payload.fits, hl] using hp

section
variable {s : State} (hs : EngineInv s)
include hs

/-- Ending a command with a code of R220 and a payload that fits it. -/
theorem EngineInv.answered {last : BitVec 8} {p : Payload} (hl : last.toNat ≤ 5) (hp : p.fits last) :
    EngineInv (s.answered last p) where
  nctx_range := hs.nctx_range
  sigma := hs.sigma
  last_code := hl
  one_command := hs.one_command
  responses r hr := by
    rw [State.answered_out, List.mem_append, List.mem_singleton] at hr
    obtain hr | rfl := hr
    · exact hs.responses r hr
    · exact response_wellFormed _ { s.status with last := last } p hl hp

/-- Writing words that hold the constants into a slot, beside any `X`, EXH and draws. -/
theorem EngineInv.setSlot {w : Block} (hw : holdsSigma w = true) (k : Nat) (x : Block) (exh : Bool) (d : Nat) :
    EngineInv { s with slots := s.slots.set k (some w), x := x, status := { s.status with exh := exh }, draws := d } where
  nctx_range := by simpa [State.nctx] using hs.nctx_range
  sigma v hv := by
    obtain hv | hv := List.mem_or_eq_of_mem_set hv
    · exact hs.sigma v hv
    · cases hv
      exact hw
  last_code := hs.last_code
  one_command := hs.one_command
  responses := hs.responses

theorem EngineInv.holdsSigma_of_slot {k : Nat} {w : Block} (hw : s.slots[k]? = some (some w)) : holdsSigma w = true :=
  hs.sigma w (List.mem_of_getElem? hw)

/-- Every command keeps the invariant. -/
theorem EngineInv.nextState {i : Instr} {t : State} (h : NextState i s t) : EngineInv t := by
  cases h with
  | failed e ok exhausted => exact hs.answered e.code_le trivial
  | created key nonce hi hlt hk hn =>
    exact (hs.setSlot (holdsSigma_createWords _) _ s.x s.status.exh s.draws).answered (by decide) trivial
  | told w hi hw => exact hs.answered (by decide) (.inr ⟨rfl, rfl⟩)
  | sought w c hi hw =>
    have hsigma := (sameButCounter_setCounter w c).holdsSigma (hs.holdsSigma_of_slot hw)
    exact (hs.setSlot hsigma _ s.x s.status.exh s.draws).answered (by decide) trivial
  | advanced w w' z p hi hw hc =>
    have hsigma := (sameButCounter_incr hc).holdsSigma (hs.holdsSigma_of_slot hw)
    refine (hs.setSlot hsigma _ z s.status.exh s.draws).answered (by decide) ?_
    obtain ⟨_, rfl⟩ | ⟨_, rfl⟩ := hi
    · exact ⟨serialize_length z, .inl rfl⟩
    · exact .inl ⟨Vector.length_toList, .inl rfl⟩
  | exhausted w z p hi hw hc =>
    have hsigma := (sameButCounter_drawCounter w s.draws).holdsSigma (hs.holdsSigma_of_slot hw)
    refine (hs.setSlot hsigma _ z true _).answered (by decide) ?_
    obtain ⟨_, rfl⟩ | ⟨_, rfl⟩ := hi
    · exact ⟨by simp, .inr rfl⟩
    · exact .inl ⟨by simp, .inr rfl⟩

/-- Every whole command keeps the invariant, an illegal one too. -/
theorem EngineInv.execCommand {c : RawCommand} {t : State} (h : execCommand c s = .next t) : EngineInv t := by
  obtain ⟨i, hnext⟩ | rfl := execCommand_next_cases h
  · exact hs.nextState hnext
  · exact hs.answered (by decide) trivial

/-- The invariant speaks of no byte still to arrive, and of CMDBUF in one clause alone. -/
theorem EngineInv.setCmdbuf {b : List Byte} (hb : atMostOneCommand b = true) (es : List PortEvent) (host : Nat) :
    EngineInv { s with cmdbuf := b, port := es, client := host } where
  nctx_range := hs.nctx_range
  sigma := hs.sigma
  last_code := hs.last_code
  one_command := hb
  responses := hs.responses

/-- A reset leaves a reset state but for what is outside the engine. -/
theorem EngineInv.resetEvent : EngineInv s.resetEvent := by
  have hreset := EngineInv.resetWith s.params ((params_valid_iff _).mpr hs.nctx_range)
  exact
    { nctx_range := hreset.nctx_range
      sigma := hreset.sigma
      last_code := hreset.last_code
      one_command := hreset.one_command
      responses := hs.responses }

end

/-- Settles O41: each way a step can go keeps the invariant. -/
theorem everyStepKeepsTheEngineWellFormed : Obligations.EveryStepKeepsTheEngineWellFormed := by
  intro s t hs h
  obtain ⟨es, _, rfl⟩ | ⟨c, len, hd, hexec⟩ | ⟨host, b, es, hd, rfl⟩ | ⟨es, rfl⟩ := step_next_cases h
  · exact (hs.setCmdbuf hs.one_command es s.client).resetEvent
  · rw [hs.drop_cmdbuf hd] at hexec
    exact (hs.setCmdbuf atMostOneCommand_nil s.port s.client).execCommand hexec
  · exact hs.setCmdbuf (atMostOneCommand_append hd b) es host
  · exact hs.setCmdbuf hs.one_command es s.client

end Sys2Proof.Machine
end

section
/-! A command as one effect: what it does is fixed by the slot it names, COUNTER_ACCESS and the draw index, and is the same change
of every state that agrees on these (spec/10_state.md R24, spec/20_memory.md R57). -/

namespace Sys2Proof.Machine

/-- What one command does to a state: the words it writes into its slot, the block it leaves in `X`, whether it is the exhaustion
fault (R228), and the code and payload of its response (R54). -/
structure Effect where
  write : Option Block
  block : Option Block
  fault : Bool
  last : BitVec 8
  payload : Payload

/-- The effect on a state of a command that names slot `k`. -/
def Effect.apply (e : Effect) (k : Nat) (s : State) : State :=
  State.answered
    { s with
      slots := match e.write with
        | none => s.slots
        | some w => s.slots.set k (some w)
      x := e.block.getD s.x
      status := { s.status with exh := e.fault || s.status.exh }
      draws := match e.fault with
        | false => s.draws
        | true => s.draws + 66 }
    e.last e.payload

/-- Two states agree on everything a command that names slot `k` reads. -/
structure SameReads (k : Nat) (s s' : State) : Prop where
  slot : s'.slots[k]? = s.slots[k]?
  access : s'.counterAccess = s.counterAccess
  draws : s'.draws = s.draws

theorem SameReads.refl (k : Nat) (s : State) : SameReads k s s := ⟨rfl, rfl, rfl⟩

/-- A slot is out of range exactly where the slot list has no entry. -/
theorem State.nctx_le_iff (s : State) (k : Nat) : s.nctx ≤ k ↔ s.slots[k]? = none := List.getElem?_eq_none_iff.symm

/-- The answer a meaning gives on `s` is one effect, the same on every state that agrees with `s` on slot `slot`. -/
def HasEffect (slot : BitVec 8) (s : State) (meaning : State → Result) : Prop :=
  ∃ e : Effect, ∀ s', SameReads slot.toNat s s' → meaning s' = .next (e.apply slot.toNat s')

theorem SameReads.context_eq {slot : BitVec 8} {s s' : State} (h : SameReads slot.toNat s s') : s'.context slot = s.context slot := by
  simp only [State.context, h.slot]

/-- Meanings that agree wherever the reads do have the same effect. -/
theorem HasEffect.congr {slot : BitVec 8} {s : State} {f g : State → Result} (hf : HasEffect slot s f)
    (h : ∀ s', SameReads slot.toNat s s' → g s' = f s') : HasEffect slot s g := by
  obtain ⟨e, he⟩ := hf
  exact ⟨e, fun s' hs => (h s' hs).trans (he s' hs)⟩

section
variable (slot : BitVec 8) (s : State)

theorem hasEffect_raiseError (code : ResultCode) : HasEffect slot s (raiseError code) :=
  ⟨⟨none, none, false, code.code, .empty⟩, fun _ _ => rfl⟩

theorem hasEffect_complete (p : Payload) : HasEffect slot s (complete p) :=
  ⟨⟨none, none, false, 0x00, p⟩, fun _ _ => rfl⟩

theorem hasEffect_write (w : Block) : HasEffect slot s fun s' => complete .empty (s'.setContext slot w) :=
  ⟨⟨some w, none, false, 0x00, .empty⟩, fun _ _ => rfl⟩

theorem hasEffect_advance (z w : Block) (p : Payload) :
    HasEffect slot s fun s' => complete p (State.setContext slot w { s' with x := z }) :=
  ⟨⟨some w, some z, false, 0x00, p⟩, fun _ _ => rfl⟩

theorem hasEffect_exhaust (z w : Block) (drawn : Nat → Payload) :
    HasEffect slot s fun s' => raiseCounterExhausted slot w (drawn s'.draws) { s' with x := z } :=
  ⟨⟨some (drawCounter w s.draws), some z, true, 0x05, drawn s.draws⟩, fun s' h => by rw [← h.draws]; rfl⟩

theorem execCreate_hasEffect (key nonce : List Byte) : HasEffect slot s (execCreate slot key nonce) := by
  have range_iff : ∀ s', SameReads slot.toNat s s' → (s'.nctx ≤ slot.toNat ↔ s.nctx ≤ slot.toNat) := fun s' h => by
    rw [State.nctx_le_iff, State.nctx_le_iff, h.slot]
  by_cases hr : s.nctx ≤ slot.toNat
  · exact (hasEffect_raiseError slot s .slotOutOfRange).congr fun s' h => if_pos ((range_iff s' h).mpr hr)
  · by_cases hl : key.length ≠ 32 ∨ nonce.length ≠ 8
    · exact (hasEffect_raiseError slot s .invalidInputLength).congr fun s' h =>
        (if_neg (mt (range_iff s' h).mp hr)).trans (if_pos hl)
    · exact (hasEffect_write slot s _).congr fun s' h => (if_neg (mt (range_iff s' h).mp hr)).trans (if_neg hl)

/-- SEEK and TELL: the two checks they share, then what they do with the words. -/
theorem hasEffect_counterAccess {meaning : State → Result} (body : Block → State → Result)
    (hb : ∀ w, HasEffect slot s (body w))
    (hm : ∀ s', meaning s' = if s'.counterAccess = false then raiseError .illegalCommand s'
      else match s'.context slot with
        | .error e => raiseError e s'
        | .ok w => body w s') : HasEffect slot s meaning := by
  by_cases ha : s.counterAccess = false
  · exact (hasEffect_raiseError slot s .illegalCommand).congr fun s' h => by rw [hm, h.access, if_pos ha]
  · cases hc : s.context slot with
    | error e => exact (hasEffect_raiseError slot s e).congr fun s' h => by rw [hm, h.access, if_neg ha, h.context_eq, hc]
    | ok w => exact (hb w).congr fun s' h => by rw [hm, h.access, if_neg ha, h.context_eq, hc]

theorem execSeek_hasEffect (c : DWord) : HasEffect slot s (execSeek slot c) :=
  hasEffect_counterAccess slot s (fun w s' => complete .empty (s'.setContext slot (setCounter w c)))
    (fun _ => hasEffect_write slot s _) fun _ => rfl

theorem execTell_hasEffect : HasEffect slot s (execTell slot) :=
  hasEffect_counterAccess slot s (fun w => complete (.words [w[12], w[13]])) (fun w => hasEffect_complete slot s _)
    fun _ => rfl

theorem runBlock_hasEffect (form : Block → Payload) (drawn : Nat → Payload) :
    HasEffect slot s (runBlock form drawn slot) := by
  cases hc : s.context slot with
  | error e =>
    exact (hasEffect_raiseError slot s e).congr fun s' h => by simp only [runBlock, h.context_eq, hc]
  | ok w =>
    cases hi : incr w with
    | none =>
      exact (hasEffect_exhaust slot s (blockWords w) w drawn).congr fun s' h => by
        simp only [runBlock, h.context_eq, hc, hi]
    | some w' =>
      exact (hasEffect_advance slot s (blockWords w) w' (form (blockWords w))).congr fun s' h => by
        simp only [runBlock, h.context_eq, hc, hi]

end

/-- Every command is one effect, fixed by its slot, COUNTER_ACCESS and the draw index. -/
theorem exec_hasEffect (i : Instr) (s : State) : HasEffect i.slot s (exec i) := by
  cases i with
  | create slot key nonce => exact execCreate_hasEffect slot s key nonce
  | nextb slot => exact (runBlock_hasEffect slot s _ _).congr fun s' _ => exec_nextb slot s'
  | nextw slot => exact (runBlock_hasEffect slot s _ _).congr fun s' _ => exec_nextw slot s'
  | seek slot c => exact execSeek_hasEffect slot s c
  | tell slot => exact execTell_hasEffect slot s

/-- The effect of a command that answers `t` on `s`, as it acts on every state that agrees with `s` on what the command reads. -/
theorem exec_effect {i : Instr} {s t : State} (h : exec i s = .next t) :
    ∃ e : Effect, t = e.apply i.slot.toNat s ∧
      ∀ s', SameReads i.slot.toNat s s' → exec i s' = .next (e.apply i.slot.toNat s') := by
  obtain ⟨e, he⟩ := exec_hasEffect i s
  exact ⟨e, Host.Outcome.next.inj (h.symm.trans (he s (.refl _ s))), he⟩

/-- No command reads or writes what is still to arrive. -/
theorem exec_port {i : Instr} {s t : State} (h : exec i s = .next t) (es : List PortEvent) :
    exec i { s with port := es } = .next { t with port := es } := by
  obtain ⟨e, rfl, he⟩ := exec_effect h
  exact he _ ⟨rfl, rfl, rfl⟩

end Sys2Proof.Machine
end

section
/-! The command stream: bytes one by one, a command when its last byte is in, and repeated commands (spec/10_state.md R31,
spec/20_memory.md R57, R58). -/

namespace Sys2Proof.Machine

/-! ### Encoded commands at the decoder -/

/-- `Laws.AnnouncedLength.Statement` for every instruction. -/
theorem encode_announces_length (i : Instr) : Laws.AnnouncedLength.Statement i := by
  cases i with
  | create slot key nonce => exact Laws.AnnouncedLength.create slot key nonce
  | nextb slot => exact Laws.AnnouncedLength.nextb slot
  | nextw slot => exact Laws.AnnouncedLength.nextw slot
  | seek slot c => exact Laws.AnnouncedLength.seek slot c
  | tell slot => exact Laws.AnnouncedLength.tell slot

/-- An encoded command without its last bytes is no whole command yet (R77). -/
theorem decode_of_encode_incomplete {i : Instr} (hi : i.wellFormed = true) {b rest : List Byte} (hb : encode i = b ++ rest)
    (hrest : rest ≠ []) : decode b = .needMore := by
  obtain hshort | ⟨b0, b1, b2, b3, r, rfl⟩ := short_or_cons b
  · exact decode_short b hshort
  · obtain ⟨op, klen, nlen, r', he, hlen⟩ := encode_announces_length i hi
    have heads := he.symm.trans hb
    simp only [List.cons_append, List.cons.injEq] at heads
    obtain ⟨rfl, _, rfl, rfl, _⟩ := heads
    have hpos := List.length_pos_iff.mpr hrest
    rw [hb, List.length_append] at hlen
    simp only [List.length_cons] at hlen
    rw [decode_cons, if_pos (by omega)]

/-- The eight operand bytes of SEEK are its counter value (R75). -/
theorem memRead_leBytes_dword (c : DWord) : memRead (leBytes 8 c.toNat) 0 8 = c.toNat := by
  have hall : (leBytes 8 c.toNat).take 8 = leBytes 8 c.toNat := List.take_of_length_le (by simp)
  rw [memRead, List.drop_zero, hall, leNat_leBytes]
  exact Nat.mod_eq_of_lt c.isLt

/-- Bytes as many as the command word at their head announces are one command, its operand the bytes after the word (R74). -/
theorem decode_of_fields {op slot klen nlen : Byte} {r : List Byte} (h : r.length + 4 = lengthOfFields op klen nlen) :
    decode (op :: slot :: klen :: nlen :: r) = .command ⟨op, slot, klen, nlen, r⟩ (r.length + 4) := by
  rw [decode_cons, if_neg h.not_lt, ← h, Nat.add_sub_cancel, List.take_length]

/-- An encoded command decodes to a command of its own length that is the instruction (R77, R81). -/
theorem decode_encode {i : Instr} (hi : i.wellFormed = true) :
    ∃ c, decode (encode i) = .command c (encode i).length ∧ classify c = .ok i := by
  cases i with
  | create slot key nonce =>
    simp only [Instr.wellFormed, Bool.and_eq_true, decide_eq_true_eq] at hi
    have hkey : key.length % 256 = key.length := by omega
    have hnonce : nonce.length % 256 = nonce.length := by omega
    exact ⟨_, decode_of_fields (by simp [lengthOfFields, hkey, hnonce]; omega), by simp [classify, hkey, hnonce]⟩
  | nextb slot => exact ⟨_, decode_of_fields rfl, rfl⟩
  | nextw slot => exact ⟨_, decode_of_fields rfl, rfl⟩
  | seek slot c => exact ⟨_, decode_of_fields rfl, by simp [classify, memRead_leBytes_dword]⟩
  | tell slot => exact ⟨_, decode_of_fields rfl, rfl⟩

/-! ### A stream runs its commands in order -/

/-- The next byte of a host, taken in a step of its own while CMDBUF holds no whole command. -/
theorem run_takes_byte {s : State} (hd : decode s.cmdbuf = .needMore) {host : Nat} {b : Byte} {es : List PortEvent}
    (hp : s.port = .byte host b :: es) (k : Nat) :
    core.run (k + 1) s = core.run k { s with cmdbuf := s.cmdbuf ++ [b], client := host, port := es } := by
  rw [core_run_succ, (incompleteCommandWaits s hd).2.1 host b es hp]

/-- The bytes of a command that are still to come, taken one after the other: CMDBUF then holds the command. -/
theorem run_takes_command {i : Instr} (hi : i.wellFormed = true) {host : Nat} {es : List PortEvent} (k : Nat)
    (rest : List Byte) : ∀ {s : State} (b : Byte), encode i = s.cmdbuf ++ b :: rest →
      s.port = (b :: rest).map (PortEvent.byte host) ++ es →
      core.run ((b :: rest).length + k) s = core.run k { s with cmdbuf := encode i, client := host, port := es } := by
  induction rest with
  | nil =>
    intro s b hb hp
    rw [List.length_singleton, Nat.add_comm, run_takes_byte (decode_of_encode_incomplete hi hb (by simp)) hp, hb]
    rfl
  | cons b' rest ih =>
    intro s b hb hp
    rw [List.length_cons, Nat.add_right_comm, run_takes_byte (decode_of_encode_incomplete hi hb (by simp)) hp]
    exact ih b' (by simpa using hb) rfl

/-- The whole command in CMDBUF executes in one step, and its bytes leave CMDBUF (R31). -/
theorem step_of_encode {i : Instr} (hi : i.wellFormed = true) {s : State} (hb : s.cmdbuf = encode i)
    (hp : ∀ es, s.port ≠ .reset :: es) : step s = exec i { s with cmdbuf := [] } := by
  obtain ⟨c, hd, hc⟩ := decode_encode hi
  rw [← hb] at hd
  rw [step_of_command hp hd, execCommand_of_classify hc, List.drop_length]

/-- A stream of bytes holds no reset. -/
theorem portStream_ne_reset (cmds : List (Nat × Instr)) (es : List PortEvent) : portStream cmds ≠ .reset :: es := by
  intro h
  have hmem : PortEvent.reset ∈ portStream cmds := h ▸ List.mem_cons_self
  simp [portStream] at hmem

theorem portStream_cons (host : Nat) (i : Instr) (cmds : List (Nat × Instr)) :
    portStream ((host, i) :: cmds) = (encode i).map (PortEvent.byte host) ++ portStream cmds := List.flatMap_cons ..

theorem streamSteps_cons (host : Nat) (i : Instr) (cmds : List (Nat × Instr)) :
    streamSteps ((host, i) :: cmds) = (encode i).length + (streamSteps cmds + 1) := by
  simp only [streamSteps, List.map_cons, List.sum_cons]
  omega

/-- The first command of a stream: its bytes are taken, it executes, and the rest of the stream runs on the state it leaves. -/
theorem run_first_command {i : Instr} (hi : i.wellFormed = true) {host : Nat} {cmds : List (Nat × Instr)} {s t : State}
    (hc : s.cmdbuf = []) (hp : s.port = portStream ((host, i) :: cmds))
    (hexec : exec i { s with client := host, port := portStream cmds } = .next t) :
    core.run (streamSteps ((host, i) :: cmds)) s = core.run (streamSteps cmds) t := by
  obtain ⟨b, rest, hb⟩ : ∃ b rest, encode i = b :: rest :=
    List.exists_cons_of_length_pos (by have := encode_length i; omega)
  rw [portStream_cons, hb] at hp
  rw [streamSteps_cons, hb, run_takes_command hi _ rest b (by rw [hc, hb]; rfl) hp, core_run_succ,
    step_of_encode hi rfl (portStream_ne_reset cmds)]
  have hempty : ({ s with cmdbuf := [], client := host, port := portStream cmds } : State) =
      { s with client := host, port := portStream cmds } := by rw [← hc]
  rw [hempty, hexec]

/-- Settles O21, by induction on the commands: each takes its bytes and executes, and what is still to arrive changes nothing
of it. -/
theorem streamRunsItsCommandsInOrder : Obligations.StreamRunsItsCommandsInOrder := by
  intro cmds
  induction cmds with
  | nil =>
    intro s _ _ hp
    have hs : s = { s with port := [] } := congrArg (fun es => ({ s with port := es } : State)) hp
    exact congrArg Host.Outcome.next hs
  | cons cmd cmds ih =>
    obtain ⟨host, i⟩ := cmd
    intro s hwf hc hp
    obtain ⟨hi, hwf⟩ := List.forall_mem_cons.mp hwf
    obtain ⟨t, hexec, hnext⟩ := exec_answers i { s with client := host, port := portStream cmds }
    obtain ⟨_, _, hbuf, hport, _⟩ := hnext.keeps_surroundings
    rw [run_first_command hi hc hp hexec, ih t hwf (hbuf.trans hc) hport, runHosted,
      show exec i { s with client := host, port := [] } = _ from exec_port hexec []]

/-! ### CREATE, SEEK and TELL are idempotent -/

/-- The same command again leaves the state it left the first time, but for the response. -/
def Repeats (i : Instr) (s : State) : Prop := ∃ t u, exec i s = .next t ∧ exec i t = .next u ∧ u = { t with out := u.out }

/-- No command reads LAST or the responses sent. -/
theorem exec_of_answered {i : Instr} {s t : State} (h : exec i s = .next t) (last : BitVec 8) (p : Payload) :
    ∃ u, exec i (s.answered last p) = .next u ∧ u = { t with out := u.out } := by
  obtain ⟨e, rfl, he⟩ := exec_effect h
  exact ⟨_, he _ ⟨rfl, rfl, rfl⟩, rfl⟩

/-- A command that writes LAST alone finds again what it found. -/
theorem repeats_of_answered {i : Instr} {s : State} {last : BitVec 8} {p : Payload}
    (h : exec i s = .next (s.answered last p)) : Repeats i s := by
  obtain ⟨u, hu, hsame⟩ := exec_of_answered h last p
  exact ⟨_, u, h, hu, hsame⟩

/-- A command that writes a slot and, on the state it leaves, writes the same words again. -/
theorem repeats_of_write {i : Instr} {s : State} {slot : BitVec 8} {w : Block}
    (h : exec i s = complete .empty (s.setContext slot w))
    (again : ∀ t : State, t = (s.setContext slot w).answered 0x00 .empty →
      exec i t = complete .empty (t.setContext slot w)) : Repeats i s :=
  ⟨_, _, h, again _ rfl, by simp [State.setContext, State.setLast, State.respond, ResultCode.code]⟩

theorem create_repeats (slot : BitVec 8) (key nonce : List Byte) (s : State) : Repeats (.create slot key nonce) s := by
  obtain ⟨_, h⟩ | ⟨_, _, h⟩ | ⟨hs, hk, hn, h⟩ := execCreate_cases s slot key nonce
  · exact repeats_of_answered h
  · exact repeats_of_answered h
  · refine repeats_of_write h fun t ht => ?_
    have hnctx : t.nctx = s.nctx := by rw [ht]; simp
    obtain ⟨hge, _⟩ | ⟨_, hlen, _⟩ | ⟨_, _, _, h'⟩ := execCreate_cases t slot key nonce
    · omega
    · omega
    · exact h'

/-- Setting the counter to the value it was set to changes nothing. -/
theorem setCounter_setCounter (w : Block) (c : DWord) : setCounter (setCounter w c) c = setCounter w c := by
  apply Vector.ext
  intro j hj
  simp only [setCounter, Vector.getElem_set]
  split_ifs <;> rfl

theorem seek_repeats (slot : BitVec 8) (c : DWord) (s : State) : Repeats (.seek slot c) s := by
  obtain ⟨_, h⟩ | ⟨_, _, h⟩ | ⟨_, _, h⟩ | ⟨w, ha, hw, h⟩ := execSeek_cases s slot c
  · exact repeats_of_answered h
  · exact repeats_of_answered h
  · exact repeats_of_answered h
  · refine repeats_of_write h fun t ht => ?_
    have hslot : t.slots[slot.toNat]? = some (some (setCounter w c)) := by
      rw [ht]
      exact List.getElem?_set_self (s.lt_nctx_of_slot _ _ hw)
    have haccess : ¬t.counterAccess = false := by rw [ht]; simp [ha]
    show execSeek slot c t = _
    rw [execSeek, if_neg haccess, (t.context_eq_ok_iff slot _).mpr hslot]
    simp only [setCounter_setCounter]

theorem tell_repeats (slot : BitVec 8) (s : State) : Repeats (.tell slot) s := by
  obtain ⟨_, h⟩ | ⟨_, _, h⟩ | ⟨_, _, h⟩ | ⟨w, _, _, h⟩ := execTell_cases s slot
  · exact repeats_of_answered h
  · exact repeats_of_answered h
  · exact repeats_of_answered h
  · exact repeats_of_answered h

/-- Settles O47: one lemma for each of the three commands. -/
theorem repeatingCreateSeekOrTellChangesNothing : Obligations.RepeatingCreateSeekOrTellChangesNothing := by
  intro i s hb hw
  cases i with
  | create slot key nonce => exact create_repeats slot key nonce s
  | nextb slot => exact absurd rfl (hb slot)
  | nextw slot => exact absurd rfl (hw slot)
  | seek slot c => exact seek_repeats slot c s
  | tell slot => exact tell_repeats slot s

end Sys2Proof.Machine
end

section
/-! The byte accesses (spec/20_memory.md R51, spec/44_codec.md R182) and the two forms of a block (R55). -/

namespace Sys2Proof.Machine

/-! ### MemRead and MemWrite -/

/-- MemRead is the little-endian sum of the bytes it reads (R51, R52). -/
theorem memRead_eq_sum (b : List Byte) (off n : Nat) (h : off + n ≤ b.length) :
    memRead b off n = ((List.finRange n).map fun k => (b[off + k.val]'(by omega)).toNat * 2 ^ (8 * k.val)).sum := by
  induction n generalizing off with
  | zero => simp [memRead, leNat]
  | succ n ih =>
    have shift : ∀ k : Fin n, b[off + 1 + k.val]'(by omega) = b[off + (k.val + 1)]'(by omega) := by
      intro k
      congr 1
      omega
    have scale : ∀ k : Nat, 2 ^ (8 * (k + 1)) = 256 * 2 ^ (8 * k) := fun k => by rw [Nat.mul_succ, Nat.pow_add, Nat.mul_comm]
    rw [memRead_succ b off n (by omega), ih (off + 1) (by omega), List.finRange_succ, List.map_cons, List.sum_cons,
      List.map_map, ← List.sum_map_mul_left]
    simp [Function.comp_def, shift, scale, Nat.mul_left_comm]

/-- What stands at each offset after MemWrite (R51): the bytes of the value, and every other byte as before. -/
theorem memWrite_getElem? (b : List Byte) (off n v j : Nat) (h : off + n ≤ b.length) :
    (memWrite b off n v)[j]? = if off ≤ j ∧ j < off + n then some (BitVec.ofNat 8 (v / 2 ^ (8 * (j - off)))) else b[j]? := by
  induction n with
  | zero => rw [memWrite, if_neg (by omega)]
  | succ n ih =>
    rw [memWrite, List.getElem?_set, memWrite_length, ih (by omega)]
    by_cases hj : off + n = j
    · subst hj
      rw [if_pos rfl, if_pos (by omega), if_pos (by omega), Nat.add_sub_cancel_left, Nat.shiftRight_eq_div_pow]
    · rw [if_neg hj]
      have same_range : off ≤ j ∧ j < off + (n + 1) ↔ off ≤ j ∧ j < off + n := by omega
      simp only [same_range]

/-- PACK is MemWrite at width 4 (R182). -/
theorem pack_eq_memWrite (v : Word) (b : List Byte) (off : Nat) : pack v b off = memWrite b off 4 v.toNat := rfl

/-- A block is serialized by sixteen MemWrites (R154). -/
theorem serialize_eq_memWrites (out : Block) :
    serialize out = (List.finRange 16).foldl (fun b i => memWrite b (4 * i.val) 4 out[i].toNat) (List.replicate 64 0) := by
  have indices : List.finRange 16 = wordIndices := by decide
  simp only [serialize, indices, pack_eq_memWrite]

/-! ### The operands of CREATE and SEEK -/

section
variable {b : List Byte} {c : RawCommand} {len : Nat} (hd : decode b = .command c len)
include hd

/-- The length of the operand string is fixed by the fields of the command word (R74). -/
theorem operand_length_of_fields : c.operand.length = lengthOfFields c.op c.klen c.nlen - 4 := by
  obtain ⟨_, _, hlen, _⟩ := (decode_eq_command_iff _ _ _).mp hd
  rw [decode_operand_length b c len hd, hlen]

/-- A CREATE of a 32-byte key and an 8-byte nonce has 40 operand bytes (R101). -/
theorem create_operand_length (hop : c.op = 0x01) (hk : c.klen = 32) (hn : c.nlen = 8) : c.operand.length = 40 := by
  rw [operand_length_of_fields hd, hop, hk, hn]
  rfl

/-- A SEEK has 8 operand bytes (R75). -/
theorem seek_operand_length (hop : c.op = 0x04) : c.operand.length = 8 := by
  rw [operand_length_of_fields hd, hop]
  rfl

end

/-- The operand string of a CREATE of these lengths is its key, then its nonce (R73). -/
theorem create_operand_split {c : RawCommand} (hop : c.op = 0x01) (hk : c.klen = 32) (hn : c.nlen = 8)
    (hl : c.operand.length = 40) :
    ∃ key nonce, classify c = .ok (.create c.slot key nonce) ∧ key ++ nonce = c.operand := by
  refine ⟨c.operand.take 32, (c.operand.drop 32).take 8, by simp [classify, hop, hk, hn], ?_⟩
  have hnonce : (c.operand.drop 32).length = 8 := by rw [List.length_drop, hl]
  rw [List.take_of_length_le hnonce.le, List.take_append_drop]

/-- Words 4 to 11 of a created context are the key words of the operand string (R102). -/
theorem createWords_key (b : List Byte) (j : Nat) (hj : j < 8) :
    (createWords b)[4 + j] = BitVec.ofNat 32 (memRead b (4 * j) 4) := by
  interval_cases j <;> rfl

/-- Words 14 and 15 are its nonce words (R103). -/
theorem createWords_nonce (b : List Byte) (j : Nat) (hj : j < 2) :
    (createWords b)[14 + j] = BitVec.ofNat 32 (memRead b (32 + 4 * j) 4) := by
  interval_cases j <;> rfl

theorem classify_seek {c : RawCommand} (hop : c.op = 0x04) (hk : c.klen = 0) (hn : c.nlen = 0) :
    classify c = .ok (.seek c.slot (BitVec.ofNat 64 (memRead c.operand 0 8))) := by
  simp [classify, hop, hk, hn]

/-- Settles O12: the laws of MemRead and MemWrite at every width, and the accesses of CREATE, SEEK and NEXTB one lemma each. -/
theorem memReadAndMemWriteAreLittleEndian : Obligations.MemReadAndMemWriteAreLittleEndian := by
  refine ⟨fun b off n h _ => memRead_eq_sum b off n h, memRead_four, fun b off n v _ h => ?write,
    fun v b off _ => pack_eq_memWrite v b off, fun b c len hd => ⟨fun hop hk hn => ?create, fun hop => ?seek⟩, fun out => ?serialized⟩
  case write =>
    refine ⟨memWrite_length b off n v, fun k hk => ?_, fun j hj => ?_⟩
    · rw [memWrite_getElem? b off n v _ h, if_pos (by omega), Nat.add_sub_cancel_left]
    · rw [memWrite_getElem? b off n v _ h, if_neg (by omega)]
  case create =>
    have hl := create_operand_length hd hop hk hn
    exact ⟨hl, create_operand_split hop hk hn hl, fun j hj => ⟨by omega, createWords_key _ j hj⟩,
      fun j hj => ⟨by omega, createWords_nonce _ j hj⟩⟩
  case seek => exact ⟨seek_operand_length hd hop, classify_seek hop⟩
  case serialized => exact ⟨fun i hi => by rw [serialize_length]; omega, serialize_eq_memWrites out⟩

/-! ### A block as bytes and as words -/

/-- PACK into a fresh buffer: byte `k` of the word at offset `k`. -/
theorem pack_fresh_getElem? (v : Word) {k : Nat} (hk : k < 4) :
    (pack v [0, 0, 0, 0] 0)[k]? = some (v.extractLsb' (8 * k) 8) := by
  rw [pack_getElem? v _ 0 k (by simp), if_pos (by omega), Nat.sub_zero]

/-- Byte `4 * i + k` of the packed words is byte `k` of word `i` (R55). -/
theorem packedWords_getElem? (ws : List Word) (i : Nat) {k : Nat} (hk : k < 4) :
    (ws.flatMap fun v => pack v [0, 0, 0, 0] 0)[4 * i + k]? = ws[i]?.map fun v => v.extractLsb' (8 * k) 8 := by
  induction ws generalizing i with
  | nil => simp
  | cons v ws ih =>
    rw [List.flatMap_cons]
    cases i with
    | zero =>
      rw [Nat.mul_zero, Nat.zero_add, List.getElem?_append_left (by simpa using hk), pack_fresh_getElem? v hk]
      rfl
    | succ i =>
      rw [List.getElem?_append_right (by simp; omega), pack_length, List.getElem?_cons_succ, ← ih i]
      congr 1
      simp
      omega

/-- A serialized block is its words packed one after the other (R55, R154). -/
theorem serialize_eq_packedWords (z : Block) : serialize z = z.toList.flatMap fun v => pack v [0, 0, 0, 0] 0 := by
  apply List.ext_getElem?
  intro j
  have hk : j % 4 < 4 := Nat.mod_lt _ (by decide)
  rw [← Nat.div_add_mod j 4, packedWords_getElem? _ _ hk]
  by_cases hi : j / 4 < 16
  · rw [serialize_getElem? z ⟨j / 4, hi⟩ ⟨j % 4, hk⟩, List.getElem?_eq_getElem (by simpa using hi)]
    simp
  · rw [List.getElem?_eq_none (by rw [serialize_length]; omega), List.getElem?_eq_none (by simpa using hi)]
    rfl

/-- Below its last value the counter has an advance (R155). -/
theorem exists_incr {w : Block} (hc : (blockCounter w).toNat < 2 ^ 64 - 1) : ∃ w', incr w = some w' :=
  Option.ne_none_iff_exists'.mp fun hnone => hc.ne ((incr_eq_none_iff w).mp hnone)

/-- Settles O26: the two commands answer from one state, and a serialized block is its packed words. -/
theorem byteAndWordFormsAgree : Obligations.ByteAndWordFormsAgree := by
  intro s slot w hw hc
  obtain ⟨w', hi⟩ := exists_incr hc
  exact ⟨_, _, _, execNextb_ok s slot w w' hw hi, execNextw_ok s slot w w' hw hi, serialize_eq_packedWords _⟩

end Sys2Proof.Machine
end

section
/-! The one response of a command (spec/20_memory.md R54). -/

namespace Sys2Proof.Machine

/-- The items a payload adds to the status on the ports (R54). -/
def Payload.items : Payload → List PortItem
  | .empty => []
  | .bytes bs => bs.map .byte
  | .words ws => ws.map .word

theorem Response.portItems_eq (r : Response) : r.portItems = .status r.status :: r.payload.items := by
  unfold Response.portItems Payload.items
  cases r.payload <;> rfl

/-- The payload R54 gives a command that ends without an error, on the state it starts from. -/
def Instr.PayloadForm (s : State) (p : Payload) : Instr → Prop
  | .create _ _ _ => p = .empty
  | .nextb _ => ∃ bs : List Byte, bs.length = 64 ∧ p = .bytes bs
  | .nextw _ => ∃ ws : List Word, ws.length = 16 ∧ p = .words ws
  | .seek _ _ => p = .empty
  | .tell slot => ∃ w : Block, s.slots[slot.toNat]? = some (some w) ∧ p = .words [w[12], w[13]]

/-- NEXTB and NEXTW return 64 bytes or 16 words, whether the block's or drawn. -/
theorem blockPayload_form {i : Instr} {s : State} {p : Payload} {bs : List Byte} {ws : List Word} (hb : bs.length = 64)
    (hw : ws.length = 16) (hi : (i = .nextb i.slot ∧ p = .bytes bs) ∨ (i = .nextw i.slot ∧ p = .words ws)) :
    Instr.PayloadForm s p i := by
  obtain ⟨hi, rfl⟩ | ⟨hi, rfl⟩ := hi <;> rw [hi]
  · exact ⟨bs, hb, rfl⟩
  · exact ⟨ws, hw, rfl⟩

/-- A command adds one response, to the host it came from, with STATUS as it leaves it and no payload after an error, else the one
of its form. -/
theorem NextState.response {i : Instr} {s t : State} (h : NextState i s t) :
    ∃ p, t.out = s.out ++ [{ host := s.client, status := t.status.word, payload := p }] ∧
      (t.status.last ∈ ([0x01, 0x02, 0x03, 0x04] : List (BitVec 8)) → p = .empty) ∧
      (t.status.last ∉ ([0x01, 0x02, 0x03, 0x04] : List (BitVec 8)) → Instr.PayloadForm s p i) := by
  have ok_no_error : (0x00 : BitVec 8) ∉ ([0x01, 0x02, 0x03, 0x04] : List (BitVec 8)) := by decide
  have exhausted_no_error : (0x05 : BitVec 8) ∉ ([0x01, 0x02, 0x03, 0x04] : List (BitVec 8)) := by decide
  cases h with
  | failed e ok exhausted => exact ⟨_, rfl, fun _ => rfl, fun h => absurd (ResultCode.code_of_error ok exhausted) h⟩
  | created key nonce hi hs hk hn => exact ⟨_, rfl, fun _ => rfl, fun _ => by rw [hi]; rfl⟩
  | told w hi hw => exact ⟨_, rfl, fun h => absurd h ok_no_error, fun _ => by rw [hi]; exact ⟨w, hw, rfl⟩⟩
  | sought w c hi hw => exact ⟨_, rfl, fun _ => rfl, fun _ => by rw [hi]; rfl⟩
  | advanced w w' z p hi hw hc =>
    exact ⟨p, rfl, fun h => absurd h ok_no_error,
      fun _ => blockPayload_form (serialize_length z) Vector.length_toList hi⟩
  | exhausted w z p hi hw hc =>
    exact ⟨p, rfl, fun h => absurd h exhausted_no_error, fun _ => blockPayload_form (by simp) (by simp) hi⟩

/-- Settles O35: `NextState.response`, with the payload spelled out on the ports. -/
theorem everyCommandSendsOneResponse : Obligations.EveryCommandSendsOneResponse := by
  intro i s
  obtain ⟨t, hexec, hnext⟩ := exec_answers i s
  obtain ⟨p, hout, herror, hform⟩ := hnext.response
  refine ⟨t, _, hexec, hout, rfl, rfl, p.items, Response.portItems_eq _, fun h => by rw [herror h]; rfl, fun h => ?_⟩
  have hform := hform h
  refine ⟨?create, ?seek, ?nextb, ?nextw, ?tell⟩
  case create =>
    rintro slot key nonce rfl
    exact congrArg Payload.items hform
  case seek =>
    rintro slot c rfl
    exact congrArg Payload.items hform
  case nextb =>
    rintro slot rfl
    obtain ⟨bs, hlen, rfl⟩ := hform
    exact ⟨bs, hlen, rfl⟩
  case nextw =>
    rintro slot rfl
    obtain ⟨ws, hlen, rfl⟩ := hform
    exact ⟨ws, hlen, rfl⟩
  case tell =>
    rintro slot rfl
    obtain ⟨w, hw, rfl⟩ := hform
    exact ⟨w, hw, rfl⟩

end Sys2Proof.Machine
end

section
/-! Decode and encode as inverses of each other, and what a command sees of other slots (spec/30_encoding.md, spec/10_state.md
R24). -/

namespace Sys2Proof.Machine

/-! ### From an instruction to its bytes and back -/

/-- Settles O15: `decode_encode`, and bytes after a whole command are not looked at (R74). -/
theorem decodeOfEncodeIsTheInstruction : Obligations.DecodeOfEncodeIsTheInstruction := by
  intro i rest hi
  obtain ⟨c, hd, hc⟩ := decode_encode hi
  exact ⟨c, decode_append _ rest c _ hd, hc⟩

/-! ### From the bytes of an instruction to the instruction and back -/

/-- The opcode map (R76): the fields and operand of a command that belongs to a row, and the instruction of that row. -/
inductive OpcodeRow : RawCommand → Instr → Prop
  | create (slot klen nlen : Byte) (b : List Byte) :
      OpcodeRow ⟨0x01, slot, klen, nlen, b⟩ (.create slot (b.take klen.toNat) ((b.drop klen.toNat).take nlen.toNat))
  | nextb (slot : Byte) (b : List Byte) : OpcodeRow ⟨0x02, slot, 0, 0, b⟩ (.nextb slot)
  | nextw (slot : Byte) (b : List Byte) : OpcodeRow ⟨0x03, slot, 0, 0, b⟩ (.nextw slot)
  | seek (slot : Byte) (b : List Byte) :
      OpcodeRow ⟨0x04, slot, 0, 0, b⟩ (.seek slot (BitVec.ofNat 64 (memRead b 0 8)))
  | tell (slot : Byte) (b : List Byte) : OpcodeRow ⟨0x05, slot, 0, 0, b⟩ (.tell slot)

/-- OP 0x05 is the one opcode left when the reserved ones and the other four are excluded (R76, R78). -/
theorem op_eq_tell {op : Byte} (hreserved : ¬(op = 0x00 ∨ 0x06 ≤ op)) (h1 : op ≠ 0x01) (h2 : op ≠ 0x02) (h3 : op ≠ 0x03)
    (h4 : op ≠ 0x04) : op = 0x05 := by
  bv_omega

/-- A command that is an instruction belongs to that instruction's row. -/
theorem opcodeRow_of_classify {c : RawCommand} {i : Instr} (h : classify c = .ok i) : OpcodeRow c i := by
  obtain ⟨op, slot, klen, nlen, b⟩ := c
  simp only [classify] at h
  split_ifs at h with h1 hreserved hzero h2 h3 h4 <;> cases h
  · subst h1
    exact .create slot klen nlen b
  all_goals
    obtain ⟨rfl, rfl⟩ : klen = 0 ∧ nlen = 0 := by simpa using hzero
  · subst h2
    exact .nextb slot b
  · subst h3
    exact .nextw slot b
  · subst h4
    exact .seek slot b
  · obtain rfl := op_eq_tell hreserved h1 h2 h3 h4
    exact .tell slot b

/-- The bytes a command consumes are its four fields, then its operand (R71, R77). -/
theorem take_of_decode {b : List Byte} {c : RawCommand} {len : Nat} (hd : decode b = .command c len) :
    b.take len = c.op :: c.slot :: c.klen :: c.nlen :: c.operand := by
  obtain ⟨r, rfl, hlen, _, hoperand⟩ := (decode_eq_command_iff b c len).mp hd
  obtain ⟨n, rfl⟩ : ∃ n, len = n + 4 := ⟨len - 4, by have := (decode_len _ _ _ hd).1; omega⟩
  simp [hoperand]

/-- The eight operand bytes of SEEK are those of the counter value they spell (R75). -/
theorem leBytes_memRead_dword {b : List Byte} (h : b.length = 8) :
    leBytes 8 (BitVec.ofNat 64 (memRead b 0 8)).toNat = b := by
  have hread : memRead b 0 8 = leNat b := by rw [memRead, List.drop_zero, List.take_of_length_le h.le]
  have hlt : leNat b < 2 ^ 64 := by simpa [h] using leNat_lt b
  rw [hread, BitVec.toNat_ofNat, Nat.mod_eq_of_lt hlt, ← h, leBytes_leNat]

/-- A row's command with an operand of the length its fields announce (R74) is the encoding of the row's instruction. -/
theorem OpcodeRow.encodes {c : RawCommand} {i : Instr} (h : OpcodeRow c i)
    (hlen : c.operand.length = lengthOfFields c.op c.klen c.nlen - 4) :
    i.wellFormed = true ∧ encode i = c.op :: c.slot :: c.klen :: c.nlen :: c.operand := by
  cases h with
  | create slot klen nlen b =>
    have hb : b.length = klen.toNat + nlen.toNat := by simpa [lengthOfFields, Nat.add_assoc] using hlen
    have hkey : (b.take klen.toNat).length = klen.toNat := List.length_take_of_le (by omega)
    have hrest : (b.drop klen.toNat).length = nlen.toNat := by rw [List.length_drop, hb, Nat.add_sub_cancel_left]
    rw [List.take_of_length_le hrest.le]
    refine ⟨?_, ?_⟩
    · simp only [Instr.wellFormed, hkey, hrest, Bool.and_eq_true, decide_eq_true_eq]
      omega
    · simp [encode, hkey, hrest]
  | nextb slot b => exact ⟨rfl, by rw [List.eq_nil_of_length_eq_zero hlen]; rfl⟩
  | nextw slot b => exact ⟨rfl, by rw [List.eq_nil_of_length_eq_zero hlen]; rfl⟩
  | seek slot b => exact ⟨rfl, by simp only [encode, leBytes_memRead_dword hlen]; rfl⟩
  | tell slot b => exact ⟨rfl, by rw [List.eq_nil_of_length_eq_zero hlen]; rfl⟩

/-- Settles O16: the command belongs to the row of its instruction, and the bytes of a row's command are its encoding. -/
theorem encodeOfDecodeIsTheBytes : Obligations.EncodeOfDecodeIsTheBytes := by
  intro b c len i hd hc
  obtain ⟨hi, hbytes⟩ := (opcodeRow_of_classify hc).encodes (operand_length_of_fields hd)
  exact ⟨hi, (take_of_decode hd).trans hbytes.symm⟩

/-! ### The fields and the length -/

/-- Settles O13: `decode_short` and `decode_cons`, whose length is the one the statement writes out. -/
theorem decoderReadsTheFieldsAndTheLength : Obligations.DecoderReadsTheFieldsAndTheLength := by
  refine ⟨decode_short, fun op slot klen nlen r len hlen => ?_⟩
  obtain rfl : len = lengthOfFields op klen nlen := hlen
  rw [decode_cons]
  refine ⟨fun hshort => if_pos hshort, fun hwhole => ⟨_, if_neg hwhole.not_gt, ?_, fun j hj => List.getElem?_take_of_lt hj⟩⟩
  rw [List.length_take]
  omega

/-! ### Words written out -/

/-- A table word whose bytes are the encoding of an instruction decodes to that instruction. -/
theorem decodeTableWord_of_encode {nbits w : Nat} {i : Instr} (hi : i.wellFormed = true) (hb : tableBytes nbits w = encode i) :
    decodeTableWord nbits w = some i := by
  obtain ⟨c, hd, hc⟩ := decode_encode hi
  simp only [decodeTableWord, hb, hd, hc]

/-- Settles O14: the bytes of the five legal words are encodings, and the other three words are run through the decoder. -/
theorem writtenOutWordsDecode : Obligations.WrittenOutWordsDecode :=
  ⟨decodeTableWord_of_encode rfl rfl, decodeTableWord_of_encode rfl rfl, decodeTableWord_of_encode rfl rfl,
    decodeTableWord_of_encode rfl rfl, decodeTableWord_of_encode rfl rfl, by decide, by decide, by decide⟩

/-! ### Other slots -/

/-- A command reads no slot but the one it names (R72). -/
theorem sameReads_set_other {s : State} {j k : Nat} (hk : k ≠ j) (v : Option Block) :
    SameReads j s { s with slots := s.slots.set k v } :=
  ⟨List.getElem?_set_ne hk, rfl, rfl⟩

/-- An effect writes no slot but the one it names (R24), so it commutes with setting another. -/
theorem Effect.apply_set_other (e : Effect) {j k : Nat} (hk : k ≠ j) (s : State) (v : Option Block) :
    e.apply j { s with slots := s.slots.set k v } = { e.apply j s with slots := (e.apply j s).slots.set k v } := by
  obtain ⟨write, block, fault, last, p⟩ := e
  cases write with
  | none => rfl
  | some w => simp only [Effect.apply, State.answered, List.set_comm v (some w) hk]

/-- Settles O46: the command has one effect, on the state with either content of the other slot. -/
theorem commandsCannotSeeOtherSlots : Obligations.CommandsCannotSeeOtherSlots := by
  intro i s k v hk
  obtain ⟨e, he⟩ := exec_hasEffect i s
  refine ⟨_, he s (.refl _ s), ?_⟩
  rw [he _ (sameReads_set_other hk v), e.apply_set_other hk]

end Sys2Proof.Machine
end

section
/-! CREATE (spec/41_construction.md). -/

namespace Sys2Proof.Machine

/-- A word that lies in the front part of a string is read from that part alone (R181). -/
theorem unpack_append_left (a b : List Byte) (off : Nat) (h : off + 3 < a.length) :
    unpack (a ++ b) off (by rw [List.length_append]; omega) = unpack a off h := by
  simp (disch := omega) only [unpack, List.getElem_append_left]

/-- A word that lies behind the front part of a string is read from the rest alone (R181). -/
theorem unpack_append_right {a : List Byte} {n : Nat} (ha : a.length = n) (b : List Byte) (off : Nat) (h : off + 3 < b.length) :
    unpack (a ++ b) (n + off) (by rw [List.length_append]; omega) = unpack b off h := by
  subst ha
  simp only [unpack, Nat.add_assoc, List.getElem_append_right, Nat.le_add_right, Nat.add_sub_cancel_left]

/-- A word of CREATE's operand string is the one UNPACK reads there (R51, R101). -/
theorem ofNat_memRead_four (b : List Byte) (off : Nat) (h : off + 3 < b.length) :
    BitVec.ofNat 32 (memRead b off 4) = unpack b off h := by
  rw [memRead_four b off h, BitVec.ofNat_toNat, BitVec.setWidth_eq]

section
variable {key : List Byte} (nonce : List Byte) (hk : key.length = 32)
include hk

/-- Words 4 to 11 of a created context are the words of its key (R102). -/
theorem createWords_eq_unpack_key (j : Nat) (hj : j < 8) :
    (createWords (key ++ nonce))[4 + j] = unpack key (4 * j) (by omega) := by
  rw [createWords_key _ j hj, ofNat_memRead_four _ _ (by rw [List.length_append]; omega), unpack_append_left]

/-- Words 14 and 15 of a created context are the words of its nonce (R103). -/
theorem createWords_eq_unpack_nonce (hn : nonce.length = 8) (j : Nat) (hj : j < 2) :
    (createWords (key ++ nonce))[14 + j] = unpack nonce (4 * j) (by omega) := by
  rw [createWords_nonce _ j hj, ofNat_memRead_four _ _ (by rw [List.length_append]; omega), unpack_append_right hk]

end

/-- OP 0x01 is CREATE whatever the length fields are (R76, R78). -/
theorem classify_create {c : RawCommand} (hop : c.op = 0x01) :
    classify c = .ok (.create c.slot (c.operand.take c.klen.toNat) ((c.operand.drop c.klen.toNat).take c.nlen.toNat)) :=
  if_pos hop

/-- Settles O22: each premise leaves one case of `execCreate_cases`, and the words of key and nonce one lemma each. -/
theorem createBuildsTheContextOrRefuses : Obligations.CreateBuildsTheContextOrRefuses := by
  intro s slot key nonce
  have hcases := execCreate_cases s slot key nonce
  refine ⟨fun hr => ?outOfRange, fun hr hl => ?badLength, fun hr hk hn => ?created, fun c hop => ⟨_, _, classify_create hop⟩⟩
  case outOfRange =>
    obtain ⟨_, h⟩ := hcases.resolve_right (by omega)
    exact h
  case badLength =>
    obtain ⟨_, _, h⟩ := (hcases.resolve_left (by omega)).resolve_right (by omega)
    exact h
  case created =>
    obtain ⟨_, _, _, h⟩ := (hcases.resolve_left (by omega)).resolve_left (by omega)
    exact ⟨createWords (key ++ nonce), h, rfl, rfl, rfl, rfl, createWords_eq_unpack_key nonce hk, rfl, rfl,
      createWords_eq_unpack_nonce nonce hk hn⟩

end Sys2Proof.Machine
end

section
/-! The word operations, the quarter-round and the rounds (spec/42_quarter_round.md). -/

namespace Sys2Proof.Machine

/-! ### The word operations -/

/-- Settles O5: `add32` and `xor32` are the library's addition and exclusive-or of words, whose laws these are. -/
theorem addWrapsAndXorIsBitwise : Obligations.AddWrapsAndXorIsBitwise :=
  ⟨fun x y => ⟨BitVec.toNat_add x y, BitVec.add_zero x⟩, rfl, rfl, fun _ _ _ => BitVec.getLsbD_xor,
    fun _ => ⟨BitVec.xor_self, BitVec.xor_zero⟩⟩

/-- ROTL32 by less than the width is the library's rotation. -/
theorem rotl32_eq_rotateLeft (x : Word) {n : Nat} (hn : n < 32) : rotl32 x n = x.rotateLeft n := by
  rw [BitVec.rotateLeft_def, Nat.mod_eq_of_lt hn, rotl32]

/-- The formula of R122. -/
theorem rotl32_toNat (x : Word) (n : Nat) :
    (rotl32 x n).toNat = ((x.toNat <<< n) ||| (x.toNat >>> (32 - n))) % 2 ^ 32 := by
  have fits : x.toNat >>> (32 - n) < 2 ^ 32 := (Nat.shiftRight_le _ _).trans_lt x.isLt
  rw [rotl32, BitVec.toNat_or, BitVec.toNat_shiftLeft, BitVec.toNat_ushiftRight, Nat.or_mod_two_pow, Nat.mod_eq_of_lt fits]

/-- A bit either stays below bit 32 or comes back in at the low end (R122). -/
theorem rotl32_getLsbD (x : Word) {n i : Nat} (hn : n < 32) (hi : i < 32) :
    (rotl32 x n).getLsbD ((i + n) % 32) = x.getLsbD i := by
  rw [rotl32_eq_rotateLeft x hn, BitVec.getLsbD_rotateLeft, Nat.mod_eq_of_lt hn, Bool.cond_decide]
  by_cases stays : i + n < 32
  · rw [Nat.mod_eq_of_lt stays, if_neg (by omega), Nat.add_sub_cancel]
    simp [stays]
  · obtain ⟨k, hk⟩ : ∃ k, i + n = k + 32 := ⟨i + n - 32, by omega⟩
    rw [hk, Nat.add_mod_right, Nat.mod_eq_of_lt (by omega), if_pos (by omega)]
    congr 1
    omega

/-- Settles O6: the formula and the movement of bits hold for every amount below 32. -/
theorem rotateMovesEveryBitAndLosesNone : Obligations.RotateMovesEveryBitAndLosesNone := by
  refine ⟨fun x n hn => ⟨rotl32_toNat x n, fun i hi => rotl32_getLsbD x ?_ hi⟩, by decide⟩
  have amounts : ∀ n ∈ [16, 12, 8, 7], n < 32 := by decide
  exact amounts n hn

/-! ### The quarter-round -/

/-- Blocks with the same sixteen words are equal. -/
theorem Block.ext_fin {x y : Block} (h : ∀ i : Fin 16, x[i] = y[i]) : x = y :=
  Vector.ext fun k hk => h ⟨k, hk⟩

/-- A word after one word of a block is set. -/
theorem Block.getElem_set (x : Block) (p i : Fin 16) (v : Word) : (x.set p v)[i] = if p = i then v else x[i] := by
  simp only [Fin.getElem_fin, Vector.getElem_set, Fin.ext_iff]

/-- One of the four steps of R123: `x[p] += x[q]; x[r] = (x[r] ^ x[p]) <<< n`. -/
def quarterStep (p q r : Fin 16) (n : Nat) (x : Block) : Block :=
  let x := x.set p (add32 x[p] x[q])
  x.set r (rotl32 (xor32 x[r] x[p]) n)

theorem quarterRound_eq_steps (a b c d : Fin 16) (x : Block) :
    quarterRound a b c d x =
      quarterStep c d b 7 (quarterStep a b d 8 (quarterStep c d b 12 (quarterStep a b d 16 x))) := rfl

/-- What one step leaves in every word. -/
theorem quarterStep_getElem {p r : Fin 16} (hpr : p ≠ r) (q : Fin 16) (n : Nat) (x : Block) (i : Fin 16) :
    (quarterStep p q r n x)[i] =
      if r = i then rotl32 (xor32 x[r] (add32 x[p] x[q])) n else if p = i then add32 x[p] x[q] else x[i] := by
  simp only [quarterStep, Block.getElem_set, if_neg hpr, if_true]

/-- A step changes only the two words it assigns. -/
theorem quarterStep_frame {p r i : Fin 16} (hp : i ≠ p) (hr : i ≠ r) (q : Fin 16) (n : Nat) (x : Block) :
    (quarterStep p q r n x)[i] = x[i] := by
  simp only [quarterStep, Block.getElem_set, if_neg hp.symm, if_neg hr.symm]

/-- A quarter-round changes only its four words (R124). -/
theorem quarterRound_frame {a b c d i : Fin 16} (hi : i ∉ [a, b, c, d]) (x : Block) :
    (quarterRound a b c d x)[i] = x[i] := by
  obtain ⟨ha, hb, hc, hd⟩ : i ≠ a ∧ i ≠ b ∧ i ≠ c ∧ i ≠ d := by simpa using hi
  rw [quarterRound_eq_steps, quarterStep_frame hc hb, quarterStep_frame ha hd, quarterStep_frame hc hb,
    quarterStep_frame ha hd]

/-- Settles O7: the words of each step are those of `quarterStep_getElem`, the others those of `quarterRound_frame`. -/
theorem quarterRoundTakesItsFourSteps : Obligations.QuarterRoundTakesItsFourSteps := by
  intro a b c d x distinct
  obtain ⟨⟨hab, hac, had⟩, ⟨hbc, hbd⟩, hcd⟩ : (a ≠ b ∧ a ≠ c ∧ a ≠ d) ∧ (b ≠ c ∧ b ≠ d) ∧ c ≠ d := by
    simpa using distinct
  refine ⟨_, _, _, _, _, _, _, _, ⟨rfl, rfl⟩, ⟨rfl, rfl⟩, ⟨rfl, rfl⟩, ⟨rfl, rfl⟩, ?_, ?_, ?_, ?_,
    fun i hi => quarterRound_frame hi x⟩
  all_goals
    simp only [quarterRound_eq_steps, quarterStep_getElem had, quarterStep_getElem hbc.symm, hab, hac, had, hbc, hbd, hcd,
      hab.symm, hac.symm, had.symm, hbc.symm, hbd.symm, hcd.symm, if_true, if_false]

/-! ### The rounds -/

theorem doubleRounds_eq_iterate (n : Nat) (x : Block) : doubleRounds n x = doubleRound^[n] x := by
  induction n generalizing x with
  | zero => rfl
  | succ n ih => exact ih (doubleRound x)

/-- Settles O8: the rounds are folds over the lists of their groups, and PERM by `doubleRounds_eq_iterate`. -/
theorem roundsRunTheirQuarterRoundsInOrder : Obligations.RoundsRunTheirQuarterRoundsInOrder :=
  fun x => ⟨rfl, rfl, rfl, doubleRounds_eq_iterate 10 x⟩

/-! ### The four lanes of a round -/

/-- Two blocks hold the same words at the given positions. -/
def AgreeOn (l : List (Fin 16)) (x y : Block) : Prop := ∀ i ∈ l, x[i] = y[i]

theorem AgreeOn.set {l : List (Fin 16)} {x y : Block} (h : AgreeOn l x y) (p : Fin 16) {v v' : Word} (hv : v = v') :
    AgreeOn l (x.set p v) (y.set p v') := by
  intro i hi
  rw [Block.getElem_set, Block.getElem_set, hv, h i hi]

/-- A step writes the same values when the words it reads are the same. -/
theorem AgreeOn.quarterStep {l : List (Fin 16)} {x y : Block} (h : AgreeOn l x y) {p q r : Fin 16} (hp : p ∈ l) (hq : q ∈ l)
    (hr : r ∈ l) (n : Nat) : AgreeOn l (quarterStep p q r n x) (quarterStep p q r n y) := by
  have sum : AgreeOn l (x.set p (add32 x[p] x[q])) (y.set p (add32 y[p] y[q])) := h.set p (by rw [h p hp, h q hq])
  exact sum.set r (by rw [sum r hr, sum p hp])

/-- A quarter-round reads only its four words (R124). -/
theorem AgreeOn.quarterRound {a b c d : Fin 16} {x y : Block} (h : AgreeOn [a, b, c, d] x y) :
    AgreeOn [a, b, c, d] (quarterRound a b c d x) (quarterRound a b c d y) := by
  have ha : a ∈ [a, b, c, d] := by simp
  have hb : b ∈ [a, b, c, d] := by simp
  have hc : c ∈ [a, b, c, d] := by simp
  have hd : d ∈ [a, b, c, d] := by simp
  exact (((h.quarterStep ha hb hd 16).quarterStep hc hd hb 12).quarterStep ha hb hd 8).quarterStep hc hd hb 7

/-- The positions of one quarter-round of a round. -/
abbrev WordGroup := Fin 16 × Fin 16 × Fin 16 × Fin 16

/-- The four words of a group. -/
def WordGroup.words (g : WordGroup) : List (Fin 16) := [g.1, g.2.1, g.2.2.1, g.2.2.2]

/-- The quarter-round on a group. -/
def WordGroup.run (g : WordGroup) (x : Block) : Block := quarterRound g.1 g.2.1 g.2.2.1 g.2.2.2 x

theorem runGroups_cons (g : WordGroup) (l : List WordGroup) (x : Block) : runGroups (g :: l) x = runGroups l (g.run x) := rfl

/-- The quarter-rounds of several groups change only the words of those groups. -/
theorem runGroups_frame (l : List WordGroup) {i : Fin 16} (hi : i ∉ l.flatMap WordGroup.words) (x : Block) :
    (runGroups l x)[i] = x[i] := by
  induction l generalizing x with
  | nil => rfl
  | cons g l ih =>
    obtain ⟨hg, hl⟩ : i ∉ g.words ∧ i ∉ l.flatMap WordGroup.words := by
      simpa only [List.flatMap_cons, List.mem_append, not_or] using hi
    rw [runGroups_cons, ih hl]
    exact quarterRound_frame hg x

/-- When no word is in two groups, each word of a group is the one that the group's own quarter-round gives: the groups before it
leave the words it reads as they are, and the groups after it the words it writes. -/
theorem runGroups_lane {l : List WordGroup} (apart : (l.flatMap WordGroup.words).Nodup) {g : WordGroup} (hg : g ∈ l)
    {i : Fin 16} (hi : i ∈ g.words) (x : Block) : (runGroups l x)[i] = (g.run x)[i] := by
  induction l generalizing x with
  | nil => cases hg
  | cons g' l ih =>
    obtain ⟨_, apart_l, disjoint⟩ := List.nodup_append'.mp apart
    rw [runGroups_cons]
    cases hg with
    | head => exact runGroups_frame l (disjoint hi) _
    | tail _ hg =>
      rw [ih apart_l hg]
      refine AgreeOn.quarterRound (fun j hj => quarterRound_frame (fun hj' => ?_) x) i hi
      exact disjoint hj' (List.mem_flatMap.mpr ⟨g, hg, hj⟩)

/-- When no word is in two groups, their quarter-rounds may run in any order (R131). -/
theorem runGroups_perm {l groups : List WordGroup} (apart : (groups.flatMap WordGroup.words).Nodup) (h : l.Perm groups)
    (x : Block) : runGroups l x = runGroups groups x := by
  have same_words := h.flatMap_right WordGroup.words
  refine Block.ext_fin fun i => ?_
  by_cases hi : i ∈ groups.flatMap WordGroup.words
  · obtain ⟨g, hg, hig⟩ := List.mem_flatMap.mp hi
    rw [runGroups_lane (same_words.nodup_iff.mpr apart) (h.mem_iff.mpr hg) hig, runGroups_lane apart hg hig]
  · rw [runGroups_frame l (mt same_words.mem_iff.mp hi), runGroups_frame groups hi]

/-- The groups of the column round partition the sixteen words (R129). -/
theorem columnGroups_partition : (columnGroups.flatMap WordGroup.words).Perm (List.finRange 16) := by decide

/-- The groups of the diagonal round partition the sixteen words (R129). -/
theorem diagonalGroups_partition : (diagonalGroups.flatMap WordGroup.words).Perm (List.finRange 16) := by decide

/-- A partition has no word in two groups. -/
theorem nodup_of_partition {l : List (Fin 16)} (h : l.Perm (List.finRange 16)) : l.Nodup :=
  h.nodup_iff.mpr (List.nodup_finRange 16)

/-- A partition has every word once. -/
theorem count_of_partition {l : List (Fin 16)} (h : l.Perm (List.finRange 16)) (i : Fin 16) : l.count i = 1 :=
  List.count_eq_one_of_mem (nodup_of_partition h) (h.mem_iff.mpr (List.mem_finRange i))

/-- Settles O9: both rounds are partitions, and the rest holds of any groups with no word in two of them. -/
theorem roundIsFourIndependentLanes : Obligations.RoundIsFourIndependentLanes := by
  have column := nodup_of_partition columnGroups_partition
  have diagonal := nodup_of_partition diagonalGroups_partition
  refine ⟨⟨fun g hg => ?distinct, fun i => ⟨count_of_partition columnGroups_partition i,
      count_of_partition diagonalGroups_partition i⟩⟩,
    fun l x h => runGroups_perm column h x, fun l x h => runGroups_perm diagonal h x,
    fun x g i hg hi => runGroups_lane column hg hi x, fun x g i hg hi => runGroups_lane diagonal hg hi x⟩
  case distinct =>
    obtain hg | hg := List.mem_append.mp hg
    · exact (List.nodup_flatMap.mp column).1 g hg
    · exact (List.nodup_flatMap.mp diagonal).1 g hg

end Sys2Proof.Machine
end

section
/-! The block transform: the counter advance, the block of a context, and counting blocks over sequences of commands
(spec/43_block_transform.md). -/

namespace Sys2Proof.Machine

/-! ### The counter advance -/

/-- At the last counter value there is no advance (R155). -/
theorem incr_last {w : Block} (h12 : w[12] = 0xFFFFFFFF) (h13 : w[13] = 0xFFFFFFFF) : incr w = none := if_pos ⟨h12, h13⟩

/-- Past the last low word the advance carries into the high word (R155). -/
theorem incr_carry {w : Block} (h12 : w[12] = 0xFFFFFFFF) (h13 : w[13] ≠ 0xFFFFFFFF) :
    incr w = some ((w.set 12 0).set 13 (w[13] + 1)) :=
  (if_neg fun last => h13 last.2).trans (if_pos h12)

/-- Below it the advance is in the low word alone (R155). -/
theorem incr_noCarry {w : Block} (h12 : w[12] ≠ 0xFFFFFFFF) : incr w = some (w.set 12 (w[12] + 1)) :=
  (if_neg fun last => h12 last.1).trans (if_neg h12)

/-- A word that is not the last one has a successor that does not wrap. -/
theorem word_toNat_succ {v : Word} (h : v ≠ 0xFFFFFFFF) : (v + 1).toNat = v.toNat + 1 := by
  bv_omega

/-- The advance adds one to the 64-bit counter (R155). -/
theorem blockCounter_incr {w w' : Block} (h : incr w = some w') : (blockCounter w').toNat = (blockCounter w).toNat + 1 := by
  by_cases h12 : w[12] = 0xFFFFFFFF
  · by_cases h13 : w[13] = 0xFFFFFFFF
    · rw [incr_last h12 h13] at h
      cases h
    · rw [incr_carry h12 h13] at h
      cases h
      have low : w[12].toNat = 2 ^ 32 - 1 := congrArg BitVec.toNat h12
      have zero : (0 : Word).toNat = 0 := rfl
      simp (disch := decide) only [blockCounter_toNat, Vector.getElem_set_self, Vector.getElem_set_ne, word_toNat_succ h13, low,
        zero]
      omega
  · rw [incr_noCarry h12] at h
    cases h
    simp (disch := decide) only [blockCounter_toNat, Vector.getElem_set_self, Vector.getElem_set_ne, word_toNat_succ h12]
    omega

/-- Settles O23: one equation of `incr` for each case, and `blockCounter_incr` and `sameButCounter_incr` for all. -/
theorem counterAdvanceCarriesByExactlyOne : Obligations.CounterAdvanceCarriesByExactlyOne := by
  intro w
  refine ⟨fun ⟨h12, h13⟩ => incr_last h12 h13, fun h12 h13 => ⟨_, incr_carry h12 h13, ?_, ?_⟩,
    fun h12 => ⟨_, incr_noCarry h12, ?_, ?_⟩, fun w' h => ⟨blockCounter_incr h, sameButCounter_incr h⟩⟩
  · simp
  · simpa only [Vector.getElem_set_self] using word_toNat_succ h13
  · simpa only [Vector.getElem_set_self] using word_toNat_succ h12
  · simp

/-! ### The block of a context -/

/-- Word `i` of the block: ten double rounds of the context, its original word added (R151 to R153). -/
theorem blockWords_getElem (w : Block) (i : Fin 16) : (blockWords w)[i] = (doubleRound^[10] w)[i] + w[i] := by
  rw [← doubleRounds_eq_iterate]
  exact Vector.getElem_zipWith ..

/-- Settles O24: `execNextw_ok` below the last counter value, with the words of the block and the advanced counter. -/
theorem nextwReturnsTheBlockWords : Obligations.NextwReturnsTheBlockWords := by
  intro s slot w hw hc
  obtain ⟨w', hi⟩ := exists_incr hc
  exact ⟨blockWords w, w', execNextw_ok s slot w w' hw hi, blockWords_getElem w, blockCounter_incr hi,
    sameButCounter_incr hi⟩

/-- Settles O25: the state NEXTW leaves too (`execNextb_ok`), and the bytes of a serialized block (`serialize_getElem?`). -/
theorem nextbReturnsTheSerializedBlock : Obligations.NextbReturnsTheSerializedBlock := by
  intro s slot w hw hc
  obtain ⟨w', hi⟩ := exists_incr hc
  exact ⟨blockWords w, w', serialize (blockWords w), execNextb_ok s slot w w' hw hi, execNextw_ok s slot w w' hw hi,
    blockWords_getElem w, serialize_length _, serialize_getElem? _, blockCounter_incr hi, sameButCounter_incr hi⟩

/-- The counter fixes both its words (R26). -/
theorem counterWords_of_blockCounter {v w : Block} (h : blockCounter v = blockCounter w) : v[12] = w[12] ∧ v[13] = w[13] := by
  have hnat : (blockCounter v).toNat = (blockCounter w).toNat := congrArg BitVec.toNat h
  rw [blockCounter_toNat, blockCounter_toNat] at hnat
  have hv := v[12].isLt
  have hw := w[12].isLt
  exact ⟨BitVec.eq_of_toNat_eq (by omega), BitVec.eq_of_toNat_eq (by omega)⟩

/-- Contexts that hold the constants agree on words 0 to 3 (R33). -/
theorem sigmaWords_of_holdsSigma {v w : Block} (hv : holdsSigma v = true) (hw : holdsSigma w = true) :
    v[0] = w[0] ∧ v[1] = w[1] ∧ v[2] = w[2] ∧ v[3] = w[3] := by
  simp only [holdsSigma, Bool.and_eq_true, decide_eq_true_eq] at hv hw
  obtain ⟨⟨⟨hv0, hv1⟩, hv2⟩, hv3⟩ := hv
  obtain ⟨⟨⟨hw0, hw1⟩, hw2⟩, hw3⟩ := hw
  exact ⟨hv0.trans hw0.symm, hv1.trans hw1.symm, hv2.trans hw2.symm, hv3.trans hw3.symm⟩

/-- The constants, the key, the counter and the nonce are all the words of a context (R22). -/
theorem context_ext {v w : Block} (hv : holdsSigma v = true) (hw : holdsSigma w = true)
    (key : ∀ (j : Nat) (_ : j < 8), v[4 + j] = w[4 + j]) (nonce14 : v[14] = w[14]) (nonce15 : v[15] = w[15])
    (counter : blockCounter v = blockCounter w) : v = w := by
  obtain ⟨sigma0, sigma1, sigma2, sigma3⟩ := sigmaWords_of_holdsSigma hv hw
  obtain ⟨counter12, counter13⟩ := counterWords_of_blockCounter counter
  refine Vector.ext fun k hk => ?_
  by_cases isKey : 4 ≤ k ∧ k < 12
  · obtain ⟨j, rfl⟩ := Nat.exists_eq_add_of_le isKey.1
    exact key j (by omega)
  · obtain rfl | rfl | rfl | rfl | rfl | rfl | rfl | rfl :
        k = 0 ∨ k = 1 ∨ k = 2 ∨ k = 3 ∨ k = 12 ∨ k = 13 ∨ k = 14 ∨ k = 15 := by omega
    all_goals assumption

/-- Settles O27: the two slots hold one context (`context_ext`), and NEXTW answers its block. -/
theorem blockDependsOnKeyNonceAndCounterAlone : Obligations.BlockDependsOnKeyNonceAndCounterAlone := by
  intro s₁ s₂ a b v w hv hw sigmaV sigmaW key nonce14 nonce15 counter hc
  obtain rfl := context_ext sigmaV sigmaW key nonce14 nonce15 counter
  obtain ⟨v', hi⟩ := exists_incr hc
  exact ⟨_, _, _, _, execNextw_ok s₁ a v v' hv hi, execNextw_ok s₂ b v v' hw hi, State.answered_out .., State.answered_out ..,
    rfl, fun k hk => List.getElem?_set_ne hk.symm, v', List.getElem?_set_self (s₁.lt_nctx_of_slot _ _ hv),
    sameButCounter_incr hi⟩

/-! ### Counting the blocks taken from a slot -/

theorem SameButCounter.trans {u v w : Block} (h : SameButCounter u v) (h' : SameButCounter v w) : SameButCounter u w :=
  fun j h12 h13 => (h' j h12 h13).trans (h j h12 h13)

/-- How many of the commands take a block from the slot. -/
def blocksTaken (slot : BitVec 8) (is : List Instr) : Nat := is.count (.nextb slot) + is.count (.nextw slot)

theorem blocksTaken_cons (slot : BitVec 8) (i : Instr) (is : List Instr) :
    blocksTaken slot (i :: is) = blocksTaken slot [i] + blocksTaken slot is := by
  simp only [blocksTaken, List.count_cons, List.count_nil]
  omega

@[simp] theorem blocksTaken_nextb (slot : BitVec 8) : blocksTaken slot [.nextb slot] = 1 := by simp [blocksTaken]

@[simp] theorem blocksTaken_nextw (slot : BitVec 8) : blocksTaken slot [.nextw slot] = 1 := by simp [blocksTaken]

@[simp] theorem blocksTaken_tell (slot slot' : BitVec 8) : blocksTaken slot [.tell slot'] = 0 := by simp [blocksTaken]

/-- A command on another slot takes no block from this one. -/
theorem blocksTaken_of_ne {slot : BitVec 8} {i : Instr} (h : i.slot ≠ slot) : blocksTaken slot [i] = 0 := by
  have not_nextb : i ≠ .nextb slot := fun hi => h (congrArg Instr.slot hi)
  have not_nextw : i ≠ .nextw slot := fun hi => h (congrArg Instr.slot hi)
  simp [blocksTaken, not_nextb, not_nextw]

/-- The answer is a next state in which the slot, whose words were `w`, has its counter `n` higher and its other words as in `w`. -/
def CounterRises (slot : BitVec 8) (w : Block) (n : Nat) (r : Result) : Prop :=
  ∃ t w', r = .next t ∧ t.slots[slot.toNat]? = some (some w') ∧
    (blockCounter w').toNat = (blockCounter w).toNat + n ∧ SameButCounter w w'

/-- The rises of two runs one after the other add up. -/
theorem CounterRises.trans {slot : BitVec 8} {u v : Block} {m n : Nat} {r : Result}
    (hcounter : (blockCounter v).toNat = (blockCounter u).toNat + m) (hsame : SameButCounter u v)
    (h : CounterRises slot v n r) : CounterRises slot u (m + n) r := by
  obtain ⟨t, w, hr, hw, hcounter', hsame'⟩ := h
  exact ⟨t, w, hr, hw, by omega, hsame.trans hsame'⟩

section
variable {s : State} {slot : BitVec 8} {w : Block} (hw : s.slots[slot.toNat]? = some (some w))
include hw

/-- A command that leaves the slot as it is. -/
theorem counterRises_zero {i : Instr} {t : State} (hexec : exec i s = .next t)
    (ht : t.slots[slot.toNat]? = s.slots[slot.toNat]?) : CounterRises slot w 0 (exec i s) :=
  ⟨t, w, hexec, ht.trans hw, rfl, sameButCounter_refl w⟩

/-- A command that completes with the slot's counter advanced. -/
theorem counterRises_one {i : Instr} {w' z : Block} {p : Payload} (hi : incr w = some w')
    (hexec : exec i s =
      .next (State.answered { s with x := z, slots := s.slots.set slot.toNat (some w') } 0x00 p)) :
    CounterRises slot w 1 (exec i s) :=
  ⟨_, w', hexec, List.getElem?_set_self (s.lt_nctx_of_slot _ _ hw), blockCounter_incr hi, sameButCounter_incr hi⟩

/-- One command, neither a CREATE nor a SEEK on the slot: a NEXTB or NEXTW on it takes one block, a TELL on it and every command
on another slot none. -/
theorem exec_counterRises {i : Instr} (not_create : ∀ key nonce, i ≠ .create slot key nonce) (not_seek : ∀ c, i ≠ .seek slot c)
    (room : (blockCounter w).toNat + blocksTaken slot [i] < 2 ^ 64) :
    CounterRises slot w (blocksTaken slot [i]) (exec i s) := by
  obtain ⟨t, hexec, hnext⟩ := exec_answers i s
  by_cases hslot : i.slot = slot
  · cases i with
    | create k key nonce =>
      obtain rfl : k = slot := hslot
      exact absurd rfl (not_create key nonce)
    | nextb k =>
      obtain rfl : k = slot := hslot
      rw [blocksTaken_nextb] at room ⊢
      obtain ⟨w', hi⟩ := exists_incr (w := w) (by omega)
      exact counterRises_one hw hi (execNextb_ok s k w w' hw hi)
    | nextw k =>
      obtain rfl : k = slot := hslot
      rw [blocksTaken_nextw] at room ⊢
      obtain ⟨w', hi⟩ := exists_incr (w := w) (by omega)
      exact counterRises_one hw hi (execNextw_ok s k w w' hw hi)
    | seek k c =>
      obtain rfl : k = slot := hslot
      exact absurd rfl (not_seek c)
    | tell k =>
      rw [blocksTaken_tell]
      exact counterRises_zero hw hexec (by rw [hnext.tell_keeps_slots rfl])
  · rw [blocksTaken_of_ne hslot]
    exact counterRises_zero hw hexec (hnext.other_slots fun h => hslot (BitVec.eq_of_toNat_eq h.symm))

end

/-- Settles O39, by induction on the commands: each raises the counter by the blocks it takes (`exec_counterRises`). -/
theorem counterCountsTheBlocksTaken : Obligations.CounterCountsTheBlocksTaken := by
  intro is s slot w hw not_create not_seek room
  show CounterRises slot w (blocksTaken slot is) (runInstrs is s)
  replace room : (blockCounter w).toNat + blocksTaken slot is < 2 ^ 64 := room
  induction is generalizing s w with
  | nil => exact ⟨s, w, rfl, hw, rfl, sameButCounter_refl w⟩
  | cons i is ih =>
    rw [blocksTaken_cons] at room ⊢
    obtain ⟨t, v, hexec, hv, hcounter, hsame⟩ := exec_counterRises hw
      (fun key nonce hi => not_create key nonce (hi ▸ List.mem_cons_self))
      (fun c hi => not_seek c (hi ▸ List.mem_cons_self)) (by omega)
    rw [runInstrs, hexec]
    exact .trans hcounter hsame (ih t v hv (fun key nonce hi => not_create key nonce (List.mem_cons_of_mem _ hi))
      (fun c hi => not_seek c (List.mem_cons_of_mem _ hi)) (by omega))

end Sys2Proof.Machine
end

section
/-! The byte codec as a pair: what PACK writes and leaves, and its round trips with UNPACK (spec/44_codec.md). -/

namespace Sys2Proof.Machine

/-- Byte `k` of what PACK writes at `off` is byte `k` of the word (R182). -/
theorem pack_getElem?_inside (v : Word) {b : List Byte} {off k : Nat} (h : off + 3 < b.length) (hk : k < 4) :
    (pack v b off)[off + k]? = some (v.extractLsb' (8 * k) 8) := by
  rw [pack_getElem? v b off _ h, if_pos (by omega), Nat.add_sub_cancel_left]

/-- PACK keeps every byte before and after the four it writes (R182). -/
theorem pack_getElem?_outside (v : Word) {b : List Byte} {off j : Nat} (h : off + 3 < b.length) (hj : j < off ∨ off + 4 ≤ j) :
    (pack v b off)[j]? = b[j]? := by
  rw [pack_getElem? v b off j h, if_neg (by omega)]

/-- A word is determined by its four bytes: bit `i` is bit `i % 8` of byte `i / 8`. -/
theorem word_eq_of_bytes {v w : Word} (h : ∀ k < 4, v.extractLsb' (8 * k) 8 = w.extractLsb' (8 * k) 8) : v = w := by
  apply BitVec.eq_of_getLsbD_eq
  intro i hi
  have same_bit := congrArg (·.getLsbD (i % 8)) (h (i / 8) (by omega))
  have hmod : i % 8 < 8 := Nat.mod_lt _ (by decide)
  simpa only [BitVec.getLsbD_extractLsb', hmod, decide_true, Bool.true_and, Nat.div_add_mod] using same_bit

/-- UNPACK after PACK gives the word back (R183): the two words have the same bytes. -/
theorem unpack_pack (v : Word) (b : List Byte) (off : Nat) (h : off + 3 < (pack v b off).length) :
    unpack (pack v b off) off h = v := by
  apply word_eq_of_bytes
  intro k hk
  have inside : off + 3 < b.length := by rwa [pack_length] at h
  rw [unpack_byte _ off h k hk, ← Option.some.injEq, ← List.getElem?_eq_getElem, pack_getElem?_inside v inside hk]

/-- PACK of an unpacked word writes the bytes it was unpacked from (R183). -/
theorem pack_unpack_getElem? {b b' : List Byte} {off k : Nat} (h : off + 3 < b.length) (h' : off + 3 < b'.length) (hk : k < 4) :
    (pack (unpack b off h) b' off)[off + k]? = b[off + k]? := by
  rw [pack_getElem?_inside _ h' hk, unpack_byte b off h k hk, ← List.getElem?_eq_getElem]

/-- Settles O11: the two round trips, `unpack_pack` and `pack_unpack_getElem?`. -/
theorem codecRoundTripsBothWays : Obligations.CodecRoundTripsBothWays :=
  ⟨unpack_pack, fun _ _ _ h h' _ hk => pack_unpack_getElem? h h' hk⟩

/-- Settles O10: the four bytes PACK writes (`pack_getElem?_inside`) and the rest it keeps (`pack_getElem?_outside`). -/
theorem packWritesExactlyFourBytes : Obligations.PackWritesExactlyFourBytes := by
  intro v b off h
  have written : ∀ k < 4, (pack v b off)[off + k]? = some (v.extractLsb' (8 * k) 8) := fun _ => pack_getElem?_inside v h
  exact ⟨pack_length v b off, written 0 (by decide), written 1 (by decide), written 2 (by decide), written 3 (by decide),
    fun _ => pack_getElem?_outside v h⟩

end Sys2Proof.Machine
end

section
/-! Two slots driven alike (spec/45_output_commands.md R195): without a fault, what a slot holds and returns is a function of the
words it held, COUNTER_ACCESS and the requests made of it. -/

namespace Sys2Proof.Machine

/-! ### What a request does to the words of a slot -/

/-- The words of a slot after a request (`drivesSlot`) that does not exhaust the counter: a block advances it, a SEEK sets it where
the engine has SEEK. -/
def wordsAfter (access : Bool) (w : Block) : Option DWord → Block
  | none => (incr w).getD w
  | some c => if access then setCounter w c else w

/-- The payload, as bytes, of a request that does not exhaust the counter. -/
def requestBytes (w : Block) : Option DWord → List Byte
  | none => serialize (blockWords w)
  | some _ => []

/-- The payloads of the requests made one after the other of a slot whose words are `w`. -/
def requestsBytes (access : Bool) : Block → List (Option DWord) → List (List Byte)
  | _, [] => []
  | w, d :: ds => requestBytes w d :: requestsBytes access (wordsAfter access w d) ds

theorem requestsBytes_append (access : Bool) (w : Block) (ds es : List (Option DWord)) :
    requestsBytes access w (ds ++ es) =
      requestsBytes access w ds ++ requestsBytes access (ds.foldl (wordsAfter access) w) es := by
  induction ds generalizing w with
  | nil => rfl
  | cons d ds ih => exact congrArg (requestBytes w d :: ·) (ih _)

/-- A command and the commands after it return the payloads of each. -/
theorem payloadsOf_cons_append (slot : BitVec 8) (i : Instr) (is : List Instr) (r : Response) (rs : List Response) :
    payloadsOf slot (i :: is) (r :: rs) = payloadsOf slot [i] [r] ++ payloadsOf slot is rs :=
  List.filterMap_append (l := [(i, r)])

/-! ### Runs that follow the requests -/

/-- From `s` to `t` the slot does what the requests among the commands `is` ask of the words it holds, and `rs` are the
responses. -/
def SlotFollows (slot : BitVec 8) (access : Bool) (s t : State) (is : List Instr) (rs : List Response) : Prop :=
  ∀ w, s.slots[slot.toNat]? = some (some w) →
    t.slots[slot.toNat]? = some (some ((is.filterMap (drivesSlot slot)).foldl (wordsAfter access) w)) ∧
    payloadsOf slot is rs = requestsBytes access w (is.filterMap (drivesSlot slot))

theorem SlotFollows.cons {slot : BitVec 8} {access : Bool} {s u t : State} {i : Instr} {is : List Instr} {r : Response}
    {rs : List Response} (first : SlotFollows slot access s u [i] [r]) (rest : SlotFollows slot access u t is rs) :
    SlotFollows slot access s t (i :: is) (r :: rs) := by
  intro w hw
  obtain ⟨words, payload⟩ := first w hw
  obtain ⟨restWords, restPayloads⟩ := rest _ words
  have requests : (i :: is).filterMap (drivesSlot slot) = [i].filterMap (drivesSlot slot) ++ is.filterMap (drivesSlot slot) :=
    List.filterMap_append (l := [i])
  rw [requests, List.foldl_append, requestsBytes_append, payloadsOf_cons_append, payload, restPayloads]
  exact ⟨restWords, rfl⟩

/-- The commands `is` lead from `s` to `t` with the responses `rs`; and if `t` is not faulted, no fault came before, and the slot
followed its requests. -/
structure FollowsRequests (slot : BitVec 8) (s t : State) (is : List Instr) (rs : List Response) : Prop where
  run : runInstrs is s = .next t
  out : t.out = s.out ++ rs
  length : rs.length = is.length
  access : t.counterAccess = s.counterAccess
  exh : t.status.exh = false → s.status.exh = false
  follows : t.status.exh = false → SlotFollows slot s.counterAccess s t is rs

theorem FollowsRequests.nil (slot : BitVec 8) (s : State) : FollowsRequests slot s s [] [] where
  run := rfl
  out := (List.append_nil _).symm
  length := rfl
  access := rfl
  exh := id
  follows _ _ hw := ⟨hw, rfl⟩

/-- The run of a first command. -/
theorem runInstrs_cons {i : Instr} {s u : State} (h : exec i s = .next u) (is : List Instr) :
    runInstrs (i :: is) s = runInstrs is u := by
  rw [runInstrs, h]

/-- One command, then the others. -/
theorem FollowsRequests.cons {slot : BitVec 8} {s u t : State} {i : Instr} {is : List Instr} {r : Response} {rs : List Response}
    (hexec : exec i s = .next u) (first : FollowsRequests slot s u [i] [r]) (rest : FollowsRequests slot u t is rs) :
    FollowsRequests slot s t (i :: is) (r :: rs) where
  run := (runInstrs_cons hexec is).trans rest.run
  out := by rw [rest.out, first.out, List.append_assoc, List.singleton_append]
  length := congrArg Nat.succ rest.length
  access := rest.access.trans first.access
  exh := first.exh ∘ rest.exh
  follows hexh := (first.follows (rest.exh hexh)).cons (first.access ▸ rest.follows hexh)

/-! ### One command -/

/-- No command clears EXH (R229). -/
theorem NextState.exh_of_clear {i : Instr} {s t : State} (h : NextState i s t) (ht : t.status.exh = false) :
    s.status.exh = false := by
  obtain ⟨hexh, _⟩ | ⟨hexh, _⟩ := h.exh_cases
  · exact hexh ▸ ht
  · rw [hexh] at ht
    cases ht

section
variable {slot : BitVec 8} {i : Instr} {s t : State} {r : Response}

/-- One command, by what it does to the slot. -/
theorem followsRequests_single (hexec : exec i s = .next t) (hout : t.out = s.out ++ [r])
    (follows : t.status.exh = false → SlotFollows slot s.counterAccess s t [i] [r]) : FollowsRequests slot s t [i] [r] := by
  have hnext := nextState_of_exec hexec
  obtain ⟨_, haccess, _⟩ := hnext.keeps_surroundings
  exact ⟨runInstrs_cons hexec [], hout, rfl, haccess, hnext.exh_of_clear, follows⟩

/-- A command that makes no request of the slot leaves its words. -/
theorem slotFollows_of_none (hi : drivesSlot slot i = none) (hslot : t.slots[slot.toNat]? = s.slots[slot.toNat]?)
    (access : Bool) : SlotFollows slot access s t [i] [r] := by
  intro w hw
  rw [List.filterMap_cons_none hi, payloadsOf_cons, hi]
  exact ⟨hslot.trans hw, rfl⟩

/-- A command that makes a request of the slot does what it asks. -/
theorem slotFollows_of_some {d : Option DWord} {access : Bool} (hi : drivesSlot slot i = some d)
    (answers : ∀ w, s.slots[slot.toNat]? = some (some w) →
      t.slots[slot.toNat]? = some (some (wordsAfter access w d)) ∧ r.payloadBytes = requestBytes w d) :
    SlotFollows slot access s t [i] [r] := by
  intro w hw
  obtain ⟨words, payload⟩ := answers w hw
  rw [List.filterMap_cons_some hi, payloadsOf_cons, hi]
  exact ⟨words, congrArg (· :: []) payload⟩

/-- The response of a command that ends in `answered`. -/
theorem response_of_answered {u : State} {last : BitVec 8} {p : Payload} (hout : (u.answered last p).out = u.out ++ [r]) :
    r.payload = p := by
  rw [State.answered_out] at hout
  cases List.append_cancel_left hout
  rfl

/-- A block request that ends without a fault returns the block of the slot's words, in either form, and advances them. -/
theorem runBlock_answers {form : Block → Payload} {drawn : Nat → Payload} {w : Block}
    (hform : ∀ z, r.payload = form z → r.payloadBytes = serialize z) (hrun : runBlock form drawn slot s = .next t)
    (hout : t.out = s.out ++ [r]) (hexh : t.status.exh = false) (hw : s.slots[slot.toNat]? = some (some w)) :
    t.slots[slot.toNat]? = some (some (wordsAfter s.counterAccess w none)) ∧ r.payloadBytes = requestBytes w none := by
  cases hi : incr w with
  | none =>
    obtain ⟨u, hu, hfault⟩ := runBlock_exhausted_exh form drawn hw ((incr_eq_none_iff w).mp hi)
    cases hu.symm.trans hrun
    rw [hfault] at hexh
    cases hexh
  | some w' =>
    rw [runBlock_ok s slot form drawn w w' hw hi, complete_eq] at hrun
    rw [requestBytes, wordsAfter, hi]
    generalize blockWords w = z at hrun ⊢
    cases hrun
    exact ⟨List.getElem?_set_self (s.lt_nctx_of_slot _ _ hw), hform z (response_of_answered hout)⟩

/-- A SEEK on a valid slot returns no payload and sets the counter exactly where the engine has SEEK. -/
theorem execSeek_answers {c : DWord} {w : Block} (hrun : execSeek slot c s = .next t) (hout : t.out = s.out ++ [r])
    (hw : s.slots[slot.toNat]? = some (some w)) :
    t.slots[slot.toNat]? = some (some (wordsAfter s.counterAccess w (some c))) ∧ r.payloadBytes = requestBytes w (some c) := by
  have payloadBytes_empty : r.payload = .empty → r.payloadBytes = [] := fun h => by rw [Response.payloadBytes, h]
  have hlt := s.lt_nctx_of_slot _ _ hw
  obtain ⟨ha, h⟩ | ⟨_, hr, _⟩ | ⟨_, hn, _⟩ | ⟨v, ha, hv, h⟩ := execSeek_cases s slot c
  · cases h.symm.trans hrun
    rw [wordsAfter, ha]
    exact ⟨hw, payloadBytes_empty (response_of_answered hout)⟩
  · omega
  · rw [hn] at hw
    cases hw
  · rw [hw] at hv
    cases hv
    cases h.symm.trans hrun
    rw [wordsAfter, ha]
    exact ⟨List.getElem?_set_self hlt, payloadBytes_empty (response_of_answered hout)⟩

/-- Every command but a CREATE of the slot. -/
theorem exec_followsRequests (slot : BitVec 8) {i : Instr} (not_create : ∀ key nonce, i ≠ .create slot key nonce) (s : State) :
    ∃ t r, exec i s = .next t ∧ FollowsRequests slot s t [i] [r] := by
  obtain ⟨t, hexec, hnext⟩ := exec_answers i s
  obtain ⟨r, hout⟩ : ∃ r, t.out = s.out ++ [r] := hnext.response.imp' _ fun _ h => h.1
  refine ⟨t, r, hexec, followsRequests_single hexec hout fun hexh => ?_⟩
  by_cases hslot : i.slot = slot
  · cases i with
    | create k key nonce =>
      obtain rfl : k = slot := hslot
      exact absurd rfl (not_create key nonce)
    | nextb k =>
      obtain rfl : k = slot := hslot
      rw [exec_nextb] at hexec
      exact slotFollows_of_some (drivesSlot_nextb k) fun w =>
        runBlock_answers (fun z hp => by rw [Response.payloadBytes, hp]) hexec hout hexh
    | nextw k =>
      obtain rfl : k = slot := hslot
      rw [exec_nextw] at hexec
      exact slotFollows_of_some (drivesSlot_nextw k) fun w =>
        runBlock_answers (fun z hp => by rw [Response.payloadBytes, hp, serialize_eq_packedWords]) hexec hout hexh
    | seek k c =>
      obtain rfl : k = slot := hslot
      exact slotFollows_of_some (drivesSlot_seek k c) fun w => execSeek_answers hexec hout
    | tell k =>
      obtain rfl : k = slot := hslot
      exact slotFollows_of_none (drivesSlot_tell k) (by rw [hnext.tell_keeps_slots rfl]) _
  · exact slotFollows_of_none (drivesSlot_of_ne slot i hslot)
      (hnext.other_slots fun h => hslot (BitVec.eq_of_toNat_eq h.symm)) _

end

/-! ### Whole runs -/

/-- Every sequence of commands without a CREATE of the slot. -/
theorem runInstrs_followsRequests {slot : BitVec 8} {is : List Instr} (not_create : ∀ key nonce, .create slot key nonce ∉ is)
    (s : State) : ∃ t rs, FollowsRequests slot s t is rs := by
  induction is generalizing s with
  | nil => exact ⟨s, [], .nil slot s⟩
  | cons i is ih =>
    obtain ⟨u, r, hexec, first⟩ := exec_followsRequests slot (i := i)
      (fun key nonce hi => not_create key nonce (hi ▸ List.mem_cons_self)) s
    obtain ⟨t, rs, rest⟩ := ih (fun key nonce hi => not_create key nonce (List.mem_cons_of_mem _ hi)) u
    exact ⟨t, r :: rs, .cons hexec first rest⟩

/-- A CREATE that succeeds sends one response and leaves the created words in its slot (R101). -/
theorem exec_create_ok {slot : BitVec 8} {s : State} {key nonce : List Byte} (hs : slot.toNat < s.nctx) (hk : key.length = 32)
    (hn : nonce.length = 8) :
    ∃ u o, exec (.create slot key nonce) s = .next u ∧ u.out = s.out ++ [o] ∧ u.counterAccess = s.counterAccess ∧
      u.slots[slot.toNat]? = some (some (createWords (key ++ nonce))) := by
  obtain ⟨hge, _⟩ | ⟨_, hlen, _⟩ | ⟨_, _, _, h⟩ := execCreate_cases s slot key nonce
  · omega
  · omega
  · exact ⟨_, _, h, State.respond_out .., rfl, List.getElem?_set_self hs⟩

/-- A CREATE that succeeds, then commands without another of the slot: unfaulted, the slot's words and payloads are those the
requests give from the created words. -/
theorem created_followsRequests {slot : BitVec 8} {s : State} {key nonce : List Byte} {is : List Instr} (hs : slot.toNat < s.nctx)
    (hk : key.length = 32) (hn : nonce.length = 8) (not_create : ∀ key nonce, .create slot key nonce ∉ is) :
    ∃ t o rs, runInstrs (.create slot key nonce :: is) s = .next t ∧ t.out = s.out ++ o :: rs ∧ rs.length = is.length ∧
      (t.status.exh = false →
        t.slots[slot.toNat]? = some (some
          ((is.filterMap (drivesSlot slot)).foldl (wordsAfter s.counterAccess) (createWords (key ++ nonce)))) ∧
        payloadsOf slot is rs =
          requestsBytes s.counterAccess (createWords (key ++ nonce)) (is.filterMap (drivesSlot slot))) := by
  obtain ⟨u, o, hcreate, hout, haccess, hslot⟩ := exec_create_ok hs hk hn
  obtain ⟨t, rs, h⟩ := runInstrs_followsRequests not_create u
  rw [← haccess]
  exact ⟨t, o, rs, (runInstrs_cons hcreate is).trans h.run, by rw [h.out, hout, List.append_assoc, List.singleton_append],
    h.length, fun hexh => h.follows hexh _ hslot⟩

/-- Settles O40: both runs follow the same requests from the same words (`created_followsRequests`). -/
theorem equalContextsGiveEqualBlocks : Obligations.EqualContextsGiveEqualBlocks := by
  intro s₁ s₂ a b key nonce is₁ is₂ ha hb hk hn access not_create₁ not_create₂ requests
  obtain ⟨t₁, o₁, r₁, run₁, out₁, length₁, follows₁⟩ := created_followsRequests ha hk hn not_create₁
  obtain ⟨t₂, o₂, r₂, run₂, out₂, length₂, follows₂⟩ := created_followsRequests hb hk hn not_create₂
  refine ⟨t₁, t₂, o₁, o₂, r₁, r₂, run₁, out₁, length₁, run₂, out₂, length₂, fun exh₁ exh₂ => ?_⟩
  obtain ⟨words₁, payloads₁⟩ := follows₁ exh₁
  obtain ⟨words₂, payloads₂⟩ := follows₂ exh₂
  rw [words₁, payloads₁, words₂, payloads₂, access, requests]
  exact ⟨rfl, rfl⟩

end Sys2Proof.Machine
end

section
/-! SEEK and TELL (spec/45_output_commands.md R193, R194). -/

namespace Sys2Proof.Machine

/-- OP 0x02 to 0x05 with a nonzero length field is no instruction (R78). -/
theorem classify_nonzeroLengthField {c : RawCommand} (hop : c.op = 0x02 ∨ c.op = 0x03 ∨ c.op = 0x04 ∨ c.op = 0x05)
    (hlen : c.klen ≠ 0 ∨ c.nlen ≠ 0) : classify c = .error (.nonzeroLengthField c.klen c.nlen) := by
  have not_create : c.op ≠ 0x01 := by bv_omega
  have not_reserved : ¬(c.op = 0x00 ∨ 0x06 ≤ c.op) := by bv_omega
  rw [classify, if_neg not_create, if_neg not_reserved, if_pos hlen]

theorem classify_tell {c : RawCommand} (hop : c.op = 0x05) (hk : c.klen = 0) (hn : c.nlen = 0) :
    classify c = .ok (.tell c.slot) := by
  simp [classify, hop, hk, hn]

/-- A command that is no instruction ends with IllegalCommand (R222). -/
theorem execCommand_of_illegal {c : RawCommand} {e : Illegal} (hc : classify c = .error e) (s : State) :
    execCommand c s = .next (s.answered 0x02 .empty) := by
  rw [execCommand, hc]
  rfl

/-- Byte `k` of a SEEK's operand is byte `k` of the counter value it spells (R75). -/
theorem seek_operand_getElem? {b : List Byte} (h : b.length = 8) {k : Nat} (hk : k < 8) :
    b[k]? = some ((BitVec.ofNat 64 (memRead b 0 8)).extractLsb' (8 * k) 8) := by
  generalize hv : BitVec.ofNat 64 (memRead b 0 8) = v
  rw [← leBytes_memRead_dword h, hv, leBytes_getElem? _ _ _ hk]
  congr 1
  apply BitVec.eq_of_toNat_eq
  simp only [BitVec.extractLsb'_toNat, BitVec.toNat_ofNat, Nat.shiftRight_eq_div_pow, Nat.pow_mul]

section
variable {s : State} {slot : BitVec 8}

/-- SEEK where the engine has none (R193). -/
theorem execSeek_illegal (c : DWord) (ha : s.counterAccess = false) :
    execSeek slot c s = .next (s.answered 0x02 .empty) := if_pos ha

/-- TELL where the engine has none (R194). -/
theorem execTell_illegal (ha : s.counterAccess = false) : execTell slot s = .next (s.answered 0x02 .empty) := if_pos ha

variable (ha : s.counterAccess = true)
include ha

/-- SEEK on a slot whose words it may not read. -/
theorem execSeek_error {e : ResultCode} (c : DWord) (hc : s.context slot = .error e) :
    execSeek slot c s = .next (s.answered e.code .empty) := by
  simp [execSeek, ha, hc, raiseError_eq]

/-- TELL on a slot whose words it may not read. -/
theorem execTell_error {e : ResultCode} (hc : s.context slot = .error e) :
    execTell slot s = .next (s.answered e.code .empty) := by
  simp [execTell, ha, hc, raiseError_eq]

/-- SEEK on a valid slot. -/
theorem execSeek_ok {w : Block} (c : DWord) (hc : s.context slot = .ok w) :
    execSeek slot c s = .next ((s.setContext slot (setCounter w c)).answered 0x00 .empty) := by
  simp [execSeek, ha, hc, complete_eq]

/-- TELL on a valid slot. -/
theorem execTell_ok {w : Block} (hc : s.context slot = .ok w) :
    execTell slot s = .next (s.answered 0x00 (.words [w[12], w[13]])) := by
  simp [execTell, ha, hc, complete_eq]

end

/-- The counter words after SEEK are the halves of its operand (R193). -/
theorem setCounter_words (w : Block) (c : DWord) :
    (setCounter w c)[12] = c.extractLsb' 0 32 ∧ (setCounter w c)[13] = c.extractLsb' 32 32 := by
  simp [setCounter]

/-- Settles O29: one equation of SEEK for each outcome, and its command's bytes by `classify_seek` and `seek_operand_getElem?`. -/
theorem seekSetsTheCounterOrStops : Obligations.SeekSetsTheCounterOrStops := by
  intro s slot c
  refine ⟨execSeek_illegal c, fun ha hr => execSeek_error ha c (s.context_eq_slotOutOfRange slot hr),
    fun ha hn => execSeek_error ha c (s.context_eq_noState slot hn), fun w ha hw => ?sought,
    fun r hop hlen => ?nonzero, fun b r len hd hop hk hn => ?command⟩
  case sought =>
    obtain ⟨low, high⟩ := setCounter_words w c
    exact ⟨setCounter w c, execSeek_ok ha c ((s.context_eq_ok_iff slot w).mpr hw), low, high, sameButCounter_setCounter w c⟩
  case nonzero => exact execCommand_of_illegal (classify_nonzeroLengthField (.inr (.inr (.inl hop))) hlen) s
  case command =>
    exact ⟨_, execCommand_of_classify (classify_seek hop hk hn) s, fun k => seek_operand_getElem? (seek_operand_length hd hop)⟩

/-- Settles O30: one equation of TELL for each outcome, and `classify_tell` for its command. -/
theorem tellReturnsTheCounterOrStops : Obligations.TellReturnsTheCounterOrStops := by
  intro s slot
  exact ⟨execTell_illegal, fun ha hr => execTell_error ha (s.context_eq_slotOutOfRange slot hr),
    fun ha hn => execTell_error ha (s.context_eq_noState slot hn),
    fun w ha hw => execTell_ok ha ((s.context_eq_ok_iff slot w).mpr hw),
    fun r hop hlen => execCommand_of_illegal (classify_nonzeroLengthField (.inr (.inr (.inr hop))) hlen) s,
    fun r hop hk hn => execCommand_of_classify (classify_tell hop hk hn) s⟩

end Sys2Proof.Machine
end

section
/-! The exceptions: which code a command reports, and what a code says of the rest of the state (spec/60_exceptions.md). -/

namespace Sys2Proof

open Sys2Proof.Machine

/-! ### The checks of R231 -/

/-- Whether an engine has the command: SEEK and TELL come with COUNTER_ACCESS (R193, R194). -/
def Instr.available (access : Bool) : Instr → Bool
  | .create _ _ _ => true
  | .nextb _ => true
  | .nextw _ => true
  | .seek _ _ => access
  | .tell _ => access

/-- Whether the command is a CREATE whose key or nonce has another length than R106 wants. -/
def Instr.badLength : Instr → Bool
  | .create _ key nonce => decide (key.length ≠ 32 ∨ nonce.length ≠ 8)
  | .nextb _ => false
  | .nextw _ => false
  | .seek _ _ => false
  | .tell _ => false

/-- Whether the command works on a context that must be there (R225). -/
def Instr.needsContext : Instr → Bool
  | .create _ _ _ => false
  | .nextb _ => true
  | .nextw _ => true
  | .seek _ _ => true
  | .tell _ => true

/-- Whether the command takes a block and advances the counter (R191, R192). -/
def Instr.takesBlock : Instr → Bool
  | .create _ _ _ => false
  | .nextb _ => true
  | .nextw _ => true
  | .seek _ _ => false
  | .tell _ => false

/-- Whether slot `k` is valid and its counter at the last value (R155). -/
def Machine.State.counterAtEnd (s : State) (k : Nat) : Bool :=
  match s.slots[k]? with
  | some (some w) => decide ((blockCounter w).toNat = 2 ^ 64 - 1)
  | some none => false
  | none => false

/-- The code R231 gives a command: that of the first check that applies. -/
def Instr.firstCode (i : Instr) (s : State) : ResultCode :=
  if i.available s.counterAccess = false then .illegalCommand
  else if s.nctx ≤ i.slot.toNat then .slotOutOfRange
  else if i.badLength = true then .invalidInputLength
  else if i.needsContext = true ∧ s.valid i.slot.toNat = false then .noState
  else if i.takesBlock = true ∧ s.counterAtEnd i.slot.toNat = true then .counterExhausted
  else .ok

/-- The grounds of R78 and R222, COUNTER_ACCESS among them. -/
def RawCommand.IsIllegal (c : RawCommand) (access : Bool) : Prop :=
  c.op = 0x00 ∨ 0x06 ≤ c.op.toNat ∨ ((c.op = 0x04 ∨ c.op = 0x05) ∧ access = false) ∨
    (c.op ∈ [0x02, 0x03, 0x04, 0x05] ∧ (c.klen ≠ 0 ∨ c.nlen ≠ 0))

end Sys2Proof

namespace Sys2Proof.Machine

theorem State.counterAtEnd_iff (s : State) (k : Nat) :
    s.counterAtEnd k = true ↔ ∃ w, s.slots[k]? = some (some w) ∧ (blockCounter w).toNat = 2 ^ 64 - 1 := by
  unfold State.counterAtEnd
  split <;> simp_all

/-- On a valid slot the counter is at its end exactly where it has no advance (R155). -/
theorem State.counterAtEnd_iff_incr {s : State} {k : Nat} {w : Block} (hw : s.slots[k]? = some (some w)) :
    s.counterAtEnd k = true ↔ incr w = none := by
  simp only [State.counterAtEnd, hw, decide_eq_true_eq, incr_eq_none_iff]

section
variable {i : Instr} {s : State}

theorem firstCode_of_unavailable (ha : i.available s.counterAccess = false) : i.firstCode s = .illegalCommand := if_pos ha

variable (ha : i.available s.counterAccess = true)
include ha

theorem firstCode_of_absent (hr : s.nctx ≤ i.slot.toNat) : i.firstCode s = .slotOutOfRange := by
  simp [Instr.firstCode, ha, hr]

theorem firstCode_of_badLength (hr : i.slot.toNat < s.nctx) (hl : i.badLength = true) :
    i.firstCode s = .invalidInputLength := by
  simp [Instr.firstCode, ha, hr.not_ge, hl]

variable (hr : i.slot.toNat < s.nctx) (hl : i.badLength = false)
include hr hl

theorem firstCode_of_notValid (hi : i.needsContext = true) (hv : s.valid i.slot.toNat = false) : i.firstCode s = .noState := by
  simp [Instr.firstCode, ha, hr.not_ge, hl, hi, hv]

/-- Past the errors, the code is that of the counter advance. -/
theorem firstCode_of_noError (hv : ¬(i.needsContext = true ∧ s.valid i.slot.toNat = false)) :
    i.firstCode s =
      if i.takesBlock = true ∧ s.counterAtEnd i.slot.toNat = true then .counterExhausted else .ok := by
  rw [Instr.firstCode, if_neg (by simp [ha]), if_neg hr.not_ge, if_neg (by simp [hl]), if_neg hv]

end

section
variable {i : Instr} {s : State} (ha : i.available s.counterAccess = true) (hl : i.badLength = false)
include ha hl

theorem firstCode_of_invalid (hi : i.needsContext = true) (hn : s.slots[i.slot.toNat]? = some none) :
    i.firstCode s = .noState :=
  firstCode_of_notValid ha (s.lt_nctx_of_slot _ _ hn) hl hi (s.valid_of_none _ hn)

theorem firstCode_of_valid {w : Block} (hw : s.slots[i.slot.toNat]? = some (some w)) :
    i.firstCode s = if i.takesBlock = true ∧ incr w = none then .counterExhausted else .ok := by
  have hv : s.valid i.slot.toNat = true := (s.valid_iff _).mpr ⟨w, hw⟩
  rw [firstCode_of_noError ha (s.lt_nctx_of_slot _ _ hw) hl (by simp [hv])]
  simp only [State.counterAtEnd_iff_incr hw]

end

/-! ### Each command reports the first code that applies -/

/-- The command answers a next state whose LAST is the first code that applies. -/
def ReportsFirst (i : Instr) (s : State) : Prop := ∃ t, exec i s = .next t ∧ t.status.last = (i.firstCode s).code

theorem reportsFirst_of_raiseError {i : Instr} {s : State} {e : ResultCode} (h : exec i s = raiseError e s)
    (hfirst : i.firstCode s = e) : ReportsFirst i s :=
  ⟨_, h, by rw [hfirst]; rfl⟩

theorem reportsFirst_of_complete {i : Instr} {s u : State} {p : Payload} (h : exec i s = complete p u)
    (hfirst : i.firstCode s = .ok) : ReportsFirst i s :=
  ⟨_, h, by rw [hfirst]; rfl⟩

theorem reportsFirst_create (slot : BitVec 8) (key nonce : List Byte) (s : State) :
    ReportsFirst (.create slot key nonce) s := by
  obtain ⟨hr, h⟩ | ⟨hr, hl, h⟩ | ⟨hr, hk, hn, h⟩ := execCreate_cases s slot key nonce
  · exact reportsFirst_of_raiseError h (firstCode_of_absent rfl hr)
  · exact reportsFirst_of_raiseError h (firstCode_of_badLength rfl hr (decide_eq_true hl))
  · exact reportsFirst_of_complete h (firstCode_of_noError rfl hr (by simp [Instr.badLength, hk, hn]) nofun)

/-- NEXTB and NEXTW, which are `runBlock` with a form of payload each. -/
theorem reportsFirst_of_runBlock {i : Instr} {s : State} {form : Block → Payload} {drawn : Nat → Payload}
    (ha : i.available s.counterAccess = true) (hl : i.badLength = false) (hi : i.needsContext = true)
    (hb : i.takesBlock = true) (hrun : exec i s = runBlock form drawn i.slot s) : ReportsFirst i s := by
  obtain ⟨hr, h⟩ | ⟨hn, h⟩ | ⟨w, w', hw, hc, h⟩ | ⟨w, hw, hc, h⟩ := runBlock_cases s i.slot form drawn
  · exact reportsFirst_of_raiseError (hrun.trans h) (firstCode_of_absent ha hr)
  · exact reportsFirst_of_raiseError (hrun.trans h) (firstCode_of_invalid ha hl hi hn)
  · exact reportsFirst_of_complete (hrun.trans h) (by simp [firstCode_of_valid ha hl hw, hc])
  · exact ⟨_, hrun.trans h, by simp [firstCode_of_valid ha hl hw, hb, hc]⟩

section
variable (s : State) (slot : BitVec 8)

theorem reportsFirst_seek (c : DWord) : ReportsFirst (.seek slot c) s := by
  obtain ⟨ha, h⟩ | ⟨ha, hr, h⟩ | ⟨ha, hn, h⟩ | ⟨w, ha, hw, h⟩ := execSeek_cases s slot c
  · exact reportsFirst_of_raiseError h (firstCode_of_unavailable ha)
  · exact reportsFirst_of_raiseError h (firstCode_of_absent ha hr)
  · exact reportsFirst_of_raiseError h (firstCode_of_invalid ha rfl rfl hn)
  · exact reportsFirst_of_complete h (by simp [firstCode_of_valid (i := .seek slot c) ha rfl hw, Instr.takesBlock])

theorem reportsFirst_tell : ReportsFirst (.tell slot) s := by
  obtain ⟨ha, h⟩ | ⟨ha, hr, h⟩ | ⟨ha, hn, h⟩ | ⟨w, ha, hw, h⟩ := execTell_cases s slot
  · exact reportsFirst_of_raiseError h (firstCode_of_unavailable ha)
  · exact reportsFirst_of_raiseError h (firstCode_of_absent ha hr)
  · exact reportsFirst_of_raiseError h (firstCode_of_invalid ha rfl rfl hn)
  · exact reportsFirst_of_complete h (by simp [firstCode_of_valid (i := .tell slot) ha rfl hw, Instr.takesBlock])

end

/-- Every command reports the first code that applies (R231). -/
theorem exec_reportsFirst (i : Instr) (s : State) : ReportsFirst i s := by
  cases i with
  | create slot key nonce => exact reportsFirst_create slot key nonce s
  | nextb slot => exact reportsFirst_of_runBlock rfl rfl rfl rfl (exec_nextb slot s)
  | nextw slot => exact reportsFirst_of_runBlock rfl rfl rfl rfl (exec_nextw slot s)
  | seek slot c => exact reportsFirst_seek s slot c
  | tell slot => exact reportsFirst_tell s slot

/-- The codes of the four errors are none of the other two (R220). -/
theorem error_code_ne {code : BitVec 8} (h : code ∈ ([0x01, 0x02, 0x03, 0x04] : List (BitVec 8))) :
    code ≠ 0x00 ∧ code ≠ 0x05 := by
  revert code
  decide

/-- An error is reported by writing LAST and answering with STATUS alone (R226). -/
theorem exec_of_firstCode_error {i : Instr} {s : State} {e : ResultCode} (hfirst : i.firstCode s = e) (ok : e ≠ .ok)
    (exhausted : e ≠ .counterExhausted) : exec i s = .next (s.answered e.code .empty) := by
  obtain ⟨h0, h5⟩ := error_code_ne (ResultCode.code_of_error ok exhausted)
  obtain ⟨t, ht, hlast⟩ := exec_reportsFirst i s
  rw [hfirst] at hlast
  rw [← hlast] at h0 h5 ⊢
  rw [ht, ← (nextState_of_exec ht).eq_answered_of_error h0 h5]

/-- Settles O31: NoState is the first code that applies to the four commands. -/
theorem invalidSlotAnswersNoState : Obligations.InvalidSlotAnswersNoState := by
  intro s slot hn
  have no_state : ∀ i : Instr, i.slot = slot → i.available s.counterAccess = true → i.badLength = false →
      i.needsContext = true → exec i s = .next (s.answered 0x04 .empty) := by
    rintro i rfl ha hl hi
    exact exec_of_firstCode_error (firstCode_of_invalid ha hl hi hn) nofun nofun
  exact ⟨no_state _ rfl rfl rfl rfl, no_state _ rfl rfl rfl rfl, fun ha c => no_state _ rfl ha rfl rfl,
    fun ha => no_state _ rfl ha rfl rfl⟩

/-- CREATE, NEXTB and NEXTW are in every engine, SEEK and TELL in those with COUNTER_ACCESS (R193, R194). -/
theorem available_of_counterAccess {i : Instr} {access : Bool}
    (h : access = true ∨ (∀ slot c, i ≠ .seek slot c) ∧ ∀ slot, i ≠ .tell slot) : i.available access = true := by
  obtain rfl | ⟨not_seek, not_tell⟩ := h
  · cases i <;> rfl
  · cases i with
    | create slot key nonce => rfl
    | nextb slot => rfl
    | nextw slot => rfl
    | seek slot c => exact absurd rfl (not_seek slot c)
    | tell slot => exact absurd rfl (not_tell slot)

/-- Settles O32: SlotOutOfRange is the first code that applies. -/
theorem absentSlotAnswersSlotOutOfRange : Obligations.AbsentSlotAnswersSlotOutOfRange := by
  intro s i hr h
  exact exec_of_firstCode_error (firstCode_of_absent (available_of_counterAccess h) hr) nofun nofun

/-! ### Whole commands: the illegal ones and the rest -/

/-- A command that matches no row of the opcode map is illegal (R78). -/
theorem isIllegal_of_classify {c : RawCommand} {e : Illegal} (h : classify c = .error e) (access : Bool) :
    c.IsIllegal access := by
  unfold classify at h
  split_ifs at h with hcreate hreserved hzero
  · obtain hop | hop := hreserved
    · exact .inl hop
    · exact .inr (.inl hop)
  · have hop : c.op ∈ ([0x02, 0x03, 0x04, 0x05] : List Byte) := by
      simp only [List.mem_cons, List.not_mem_nil, or_false]
      bv_omega
    exact .inr (.inr (.inr ⟨hop, hzero⟩))

/-- A command of a row is illegal exactly where the engine lacks its instruction. -/
theorem OpcodeRow.isIllegal_iff {c : RawCommand} {i : Instr} (h : OpcodeRow c i) (access : Bool) :
    c.IsIllegal access ↔ i.available access = false := by
  cases h <;> simp [RawCommand.IsIllegal, Instr.available]

/-- A whole command is illegal and ends so, or is an instruction the engine has. -/
theorem execCommand_legal_cases (c : RawCommand) (s : State) :
    (c.IsIllegal s.counterAccess ∧ execCommand c s = .next (s.answered 0x02 .empty)) ∨
    (¬c.IsIllegal s.counterAccess ∧
      ∃ i, OpcodeRow c i ∧ i.available s.counterAccess = true ∧ execCommand c s = exec i s) := by
  cases hc : classify c with
  | error e => exact .inl ⟨isIllegal_of_classify hc _, execCommand_of_illegal hc s⟩
  | ok i =>
    have row := opcodeRow_of_classify hc
    rw [row.isIllegal_iff, execCommand_of_classify hc s]
    cases ha : i.available s.counterAccess with
    | false => exact .inl ⟨rfl, exec_of_firstCode_error (firstCode_of_unavailable ha) nofun nofun⟩
    | true => exact .inr ⟨nofun, i, row, ha, rfl⟩

/-- A command the engine has does not report IllegalCommand. -/
theorem firstCode_code_ne_illegal {i : Instr} {s : State} (ha : i.available s.counterAccess = true) :
    (i.firstCode s).code ≠ 0x02 := by
  unfold Instr.firstCode
  rw [if_neg (by simp [ha])]
  split_ifs <;> decide

/-- Settles O20: an illegal command ends so, and a legal one reports the first of the other codes. -/
theorem illegalCommandIsConsumedAndReported : Obligations.IllegalCommandIsConsumedAndReported := by
  intro s c len hp hd illegal
  rw [step_of_command hp hd]
  obtain ⟨hillegal, h⟩ | ⟨hlegal, i, _, ha, h⟩ := execCommand_legal_cases c { s with cmdbuf := s.cmdbuf.drop len }
  · exact ⟨fun _ => h, fun hlegal => absurd hillegal hlegal⟩
  · refine ⟨fun hillegal => absurd hillegal hlegal, fun _ => ?_⟩
    obtain ⟨t, ht, hlast⟩ := exec_reportsFirst i { s with cmdbuf := s.cmdbuf.drop len }
    exact ⟨t, h.trans ht, hlast ▸ firstCode_code_ne_illegal ha, (execCommand_keeps (h.trans ht)).2⟩

/-- The checks of R231 on the raw fields of a whole command are those on its instruction. -/
theorem OpcodeRow.checks {b : List Byte} {c : RawCommand} {len : Nat} {i : Instr} (h : OpcodeRow c i)
    (hd : decode b = .command c len) :
    i.slot = c.slot ∧ (i.badLength = true ↔ c.op = 0x01 ∧ (c.klen ≠ 32 ∨ c.nlen ≠ 8)) ∧
      (i.needsContext = true ↔ c.op ≠ 0x01) ∧ (i.takesBlock = true ↔ c.op = 0x02 ∨ c.op = 0x03) := by
  cases h with
  | create slot klen nlen operand =>
    have operand_length : operand.length = 4 + klen.toNat + nlen.toNat - 4 := operand_length_of_fields hd
    have hk : (operand.take klen.toNat).length = klen.toNat := by
      rw [List.length_take]
      omega
    have hn : ((operand.drop klen.toNat).take nlen.toNat).length = nlen.toNat := by
      rw [List.length_take, List.length_drop]
      omega
    refine ⟨rfl, ?_, by simp [Instr.needsContext], by simp [Instr.takesBlock]⟩
    simp [Instr.badLength, hk, hn, ← BitVec.toNat_inj]
  | nextb slot operand => simp [Instr.slot, Instr.badLength, Instr.needsContext, Instr.takesBlock]
  | nextw slot operand => simp [Instr.slot, Instr.badLength, Instr.needsContext, Instr.takesBlock]
  | seek slot operand => simp [Instr.slot, Instr.badLength, Instr.needsContext, Instr.takesBlock]
  | tell slot operand => simp [Instr.slot, Instr.badLength, Instr.needsContext, Instr.takesBlock]

/-- Settles O33: the chain is that of `Instr.firstCode`, and the code of an error fixes the whole state. -/
theorem firstApplicableCodeIsReported : Obligations.FirstApplicableCodeIsReported := by
  intro b c len s hd illegal badLength noState atEnd
  obtain ⟨hillegal, h⟩ | ⟨hlegal, i, row, ha, h⟩ := execCommand_legal_cases c s
  · refine ⟨_, h, fun _ => rfl, ?_, ?_, ?_, ?_, ?_⟩ <;> exact fun hlegal => absurd hillegal hlegal
  · obtain ⟨hslot, hbad, hneeds, htakes⟩ := row.checks hd
    obtain ⟨t, ht, hlast⟩ := exec_reportsFirst i s
    have stopped : ∀ e, i.firstCode s = e → e ≠ .ok → e ≠ .counterExhausted → t = s.answered e.code .empty :=
      fun e hfirst ok exhausted => Host.Outcome.next.inj (ht.symm.trans (exec_of_firstCode_error hfirst ok exhausted))
    have length_ok : ¬badLength → i.badLength = false := fun hl => Bool.eq_false_iff.mpr (mt hbad.mp hl)
    have noState_iff : noState ↔ i.needsContext = true ∧ s.valid i.slot.toNat = false := by rw [hneeds, hslot]
    have atEnd_iff : atEnd ↔ i.takesBlock = true ∧ s.counterAtEnd i.slot.toNat = true := by
      rw [htakes, State.counterAtEnd_iff, hslot]
    rw [← hslot]
    refine ⟨t, h.trans ht, fun hillegal => absurd hillegal hlegal, fun _ hr => ?absent, fun _ hr hl => ?badLength,
      fun _ hr hl hn => ?noState, fun _ hr hl hn hend => ?exhausted, fun _ hr hl hn hend => ?ok⟩
    case absent => exact stopped _ (firstCode_of_absent ha hr) nofun nofun
    case badLength => exact stopped _ (firstCode_of_badLength ha hr (hbad.mpr hl)) nofun nofun
    case noState =>
      obtain ⟨hi, hv⟩ := noState_iff.mp hn
      exact stopped _ (firstCode_of_notValid ha hr (length_ok hl) hi hv) nofun nofun
    case exhausted =>
      rw [hlast, firstCode_of_noError ha hr (length_ok hl) (mt noState_iff.mpr hn), if_pos (atEnd_iff.mp hend)]
      rfl
    case ok =>
      rw [hlast, firstCode_of_noError ha hr (length_ok hl) (mt noState_iff.mpr hn), if_neg (mt atEnd_iff.mpr hend)]
      rfl

/-- Settles O34: an illegal command and every error of an instruction write LAST alone. -/
theorem errorsChangeNothingButLast : Obligations.ErrorsChangeNothingButLast := by
  intro c s
  obtain ⟨t, ht, hcases⟩ := execCommand_answers c s
  refine ⟨t, ht, ?_⟩
  rintro _ hcode rfl
  obtain ⟨i, hnext⟩ | rfl := hcases
  · obtain ⟨h0, h5⟩ := error_code_ne hcode
    exact hnext.eq_answered_of_error h0 h5
  · rfl

/-! ### The exhaustion fault, and the engine after it -/

/-- A block command at the last counter value, as one next state (R228). -/
theorem runBlock_exhausted_next {s : State} {slot : BitVec 8} {w : Block} (form : Block → Payload) (drawn : Nat → Payload)
    (hw : s.slots[slot.toNat]? = some (some w)) (hc : (blockCounter w).toNat = 2 ^ 64 - 1) :
    ∃ x, runBlock form drawn slot s = .next { s with
      slots := s.slots.set slot.toNat (some (drawCounter w s.draws)), status := { last := 0x05, exh := true }, x := x,
      draws := s.draws + 66, out := s.out ++ [{ host := s.client, status := 0x00000105, payload := drawn s.draws }] } := by
  rw [runBlock_exhausted s slot form drawn w hw ((incr_eq_none_iff w).mpr hc), raiseCounterExhausted_eq]
  exact ⟨blockWords w, rfl⟩

/-- Settles O28: the same fault with the draws of either form. -/
theorem exhaustionLeavesFreeCounterAndPayload : Obligations.ExhaustionLeavesFreeCounterAndPayload := by
  intro s slot w hw hc d t
  exact ⟨exec_nextb slot s ▸ runBlock_exhausted_next _ drawBytes hw hc,
    exec_nextw slot s ▸ runBlock_exhausted_next _ drawWords hw hc, fun _ _ => ⟨rfl, rfl⟩⟩

/-- Setting EXH sets bit 8 of the register (R27). -/
theorem Status.word_exh_true (last : BitVec 8) (exh : Bool) :
    Status.word { last := last, exh := true } = Status.word { last := last, exh := exh } ||| 0x100 := by
  cases exh <;> simp [Status.word, BitVec.or_assoc]

/-- Every whole command is one effect: its instruction's, or that of IllegalCommand. -/
theorem execCommand_hasEffect (c : RawCommand) (s : State) : ∃ slot, HasEffect slot s (execCommand c) := by
  cases hc : classify c with
  | ok i => exact ⟨i.slot, (exec_hasEffect i s).congr fun s' _ => execCommand_of_classify hc s'⟩
  | error e => exact ⟨c.slot, (hasEffect_raiseError c.slot s .illegalCommand).congr fun s' _ => execCommand_of_illegal hc s'⟩

/-- The response an effect sends. -/
def Effect.response (e : Effect) (s : State) : Response where
  host := s.client
  status := Status.word { last := e.last, exh := e.fault || s.status.exh }
  payload := e.payload

theorem Effect.apply_out (e : Effect) (k : Nat) (s : State) : (e.apply k s).out = s.out ++ [e.response s] := rfl

/-- With EXH set the response differs in bit 8 of STATUS alone (R27, R229). -/
theorem Effect.response_setExh (e : Effect) (s : State) :
    e.response s.setExh = { e.response s with status := (e.response s).status ||| 0x100 } := by
  simp [Effect.response, Status.word_exh_true e.last (e.fault || s.status.exh)]

/-- With EXH set an effect is the same but for EXH and the response (R229). -/
theorem Effect.apply_setExh (e : Effect) (k : Nat) (s : State) :
    e.apply k s.setExh = { (e.apply k s).setExh with out := s.out ++ [e.response s.setExh] } := by
  simp [Effect.apply, Effect.response, State.answered, State.setExh]

/-- With EXH set every whole command does the same to all but EXH and bit 8 of the STATUS it sends (R229). -/
theorem execCommand_setExh (c : RawCommand) (s : State) :
    ∃ t r, execCommand c s = .next t ∧ t.out = s.out ++ [r] ∧
      execCommand c s.setExh = .next { t.setExh with out := s.out ++ [{ r with status := r.status ||| 0x100 }] } := by
  obtain ⟨slot, e, he⟩ := execCommand_hasEffect c s
  refine ⟨_, _, he s (.refl _ s), e.apply_out _ s, ?_⟩
  rw [he s.setExh ⟨rfl, rfl, rfl⟩, e.apply_setExh, e.response_setExh]

/-- No command clears EXH, legal or not (R229). -/
theorem execCommand_keeps_exh {c : RawCommand} {s t : State} (h : execCommand c s = .next t) (hs : s.status.exh = true) :
    t.status.exh = true := by
  obtain ⟨i, hnext⟩ | rfl := execCommand_next_cases h
  · obtain ⟨hexh, _⟩ | ⟨hexh, _⟩ := hnext.exh_cases
    · rw [hexh, hs]
    · exact hexh
  · exact hs

/-- Settles O38: a command reads no EXH, so it is one effect on both states; and no event but a reset clears EXH. -/
theorem exhaustedEngineGoesOn : Obligations.ExhaustedEngineGoesOn := by
  refine ⟨fun c s => execCommand_setExh c { s with status := { s.status with exh := false } }, fun s t hstep hs => ?_⟩
  obtain ⟨es, hp, _⟩ | ⟨c, len, _, hexec⟩ | ⟨host, b, es, _, rfl⟩ | ⟨es, rfl⟩ := step_next_cases hstep
  · exact .inr ⟨es, hp⟩
  · exact .inl (execCommand_keeps_exh hexec hs)
  · exact .inl hs
  · exact .inl hs

/-! ### One privilege level -/

/-- Settles O45: no command reads the host it came from, so it is one effect, whose response goes to either. -/
theorem everyHostMaySendEveryCommand : Obligations.EveryHostMaySendEveryCommand := by
  intro i s h
  obtain ⟨e, he⟩ := exec_hasEffect i s
  exact ⟨_, _, he s (.refl _ s), e.apply_out _ s, he _ ⟨rfl, rfl, rfl⟩⟩

end Sys2Proof.Machine
end

section
/-! Reset as an event (spec/70_reset_and_hazards.md R250, R252). -/

namespace Sys2Proof.Machine

/-- A reset that is due is the next step, whatever CMDBUF holds (R250). -/
theorem step_of_reset {s : State} {es : List PortEvent} (hp : s.port = .reset :: es) :
    step s = .next (State.resetEvent { s with port := es }) := by
  obtain ⟨_, hp', h⟩ | ⟨hne, _⟩ | ⟨hne, _⟩ := machineStep_cases s
  · cases hp.symm.trans hp'
    exact h
  · exact absurd hp (hne es)
  · exact absurd hp (hne es)

/-- A reset event leaves every slot in range without words (R35). -/
theorem State.resetEvent_slot_none (s : State) {k : Nat} (hk : k < s.nctx) : s.resetEvent.slots[k]? = some none := by
  rw [State.resetEvent_slots, List.getElem?_replicate_of_lt hk]

/-- Settles O3: the step is the reset event (`step_of_reset`), whose fields are those of R35 with the parameters kept. -/
theorem resetEventKeepsTheParameters : Obligations.ResetEventKeepsTheParameters := by
  intro s es hp
  refine ⟨_, step_of_reset hp, State.resetEvent_nctx _, ?_, fun k hk => State.resetEvent_slot_none _ hk, ?_, ?_, ?_, ?_⟩
  · rw [State.resetEvent_counterAccess]
  · rw [State.resetEvent_status, status_word_reset]
  · rw [State.resetEvent_cmdbuf]
  · rw [State.resetEvent_out]
  · rw [State.resetEvent_port]

end Sys2Proof.Machine
end
